-- ==== Sys2Proof/Word.lean ====
section
/-! DEFINITION. The word types of the engine (spec/00_scope.md R8, R10): every value is an unsigned
bit vector whose bit 0 is the least significant. -/

namespace Sys2Proof

/-- A command word, `CMDW = 16` bits (R8, R70). -/
abbrev CmdWord := BitVec 16

/-- A checksum, `CW = 8` bits (R2, R8). -/
abbrev Checksum := BitVec 8

/-- A generator polynomial, `PW = CW + 1 = 9` bits; bit `k` is the coefficient of `x^k` (R8, R24). -/
abbrev Poly := BitVec 9

/-- A length, position, index or count, `LW = 12` bits (R8). -/
abbrev Count := BitVec 12

/-- An error code, `ERRW = 3` bits (R8, R28). -/
abbrev ErrCode := BitVec 3

end Sys2Proof
end

