-- ==== Sys2Proof/Syntax.lean ====
section
/-! DEFINITION. The engine's instructions: the seven commands of spec/opcode_table.json
(spec/30_encoding.md R71), one constructor a row, operands at exactly the widths of their immediates (R73). -/

namespace Sys2Proof

/-- A command the host can have accepted. The micro-steps of the sequencer are not commands (R77). -/
inductive Instr where
  /-- `CLR`: clear the engine for a new run (R161). -/
  | clr
  /-- `PUSH b`: append one bit to the bit sequence (R162). -/
  | push (b : BitVec 1)
  /-- `SETPOLY p`: supply the generator polynomial (R164). -/
  | setpoly (p : Poly)
  /-- `SETMAX m`: supply the maximum error count (R165). -/
  | setmax (m : Count)
  /-- `SETEXP x`: supply the expected checksum (R166). -/
  | setexp (x : Checksum)
  /-- `CRC`: start the computation of the checksum of `DATA` (R111). -/
  | crc
  /-- `SOLVE`: start the search (R140). -/
  | solve
  deriving DecidableEq, Repr

/-- The mnemonic of a command, as spec/opcode_table.json spells it. -/
def Instr.mnemonic : Instr → String
  | .clr => "CLR"
  | .push _ => "PUSH"
  | .setpoly _ => "SETPOLY"
  | .setmax _ => "SETMAX"
  | .setexp _ => "SETEXP"
  | .crc => "CRC"
  | .solve => "SOLVE"

end Sys2Proof
end

