-- ==== Sys2Proof/WellFormed.lean ====
section
/-! DEFINITION. When a written-down command is well formed (spec/30_encoding.md R80, R84). An `Instr` carries
its operand at exactly the width of its immediate, so every `Instr` is well formed by its type; what can be
ill formed is a command of the assembler's notation, whose operand is a number of any size. -/

namespace Sys2Proof

/-- A command of the assembler's notation (R80), its operand a number of any size, or one of the two
pseudo-instructions (R84), which are conveniences of the notation and not features of the engine. -/
inductive SourceCommand where
  | clr
  | push (b : Nat)
  | setpoly (p : Nat)
  | setmax (m : Nat)
  | setexp (x : Nat)
  | crc
  | solve
  /-- `PUSHS "<text>"`. -/
  | pushs (text : List Char)
  /-- `PAD8`. -/
  | pad8
  deriving DecidableEq, Repr

/-- R80: "`PUSH` takes `0` or `1`. `SETPOLY` takes `0 .. 0x1FF`. `SETMAX` takes `0 .. 4095`. `SETEXP` takes
`0 .. 0xFF`. An operand out of range is an assembly error". -/
def SourceCommand.wellFormed : SourceCommand → Bool
  | .clr => true
  | .push b => decide (b ≤ 1)
  | .setpoly p => decide (p ≤ 0x1FF)
  | .setmax m => decide (m ≤ 4095)
  | .setexp x => decide (x ≤ 0xFF)
  | .crc => true
  | .solve => true
  | .pushs _ => true
  | .pad8 => true

end Sys2Proof
end

