-- ==== Sys2Proof/Decode.lean ====
section
/-! DEFINITION. Decoding and encoding of command words (spec/30_encoding.md R70 to R76). Decoding is total on
16-bit words and rejects by name; there is one length and one format, so no length is ever found. -/

namespace Sys2Proof

/-- `op = w[15:12]` (R70). -/
def opField (w : CmdWord) : BitVec 4 := w.extractLsb' 12 4

/-- `imm = w[11:0]` (R70). -/
def immField (w : CmdWord) : BitVec 12 := w.extractLsb' 0 12

/-- Why a word is `Illegal` (R74): its opcode is reserved (R75), or a bit of its immediate that the command
does not use is not 0. Both are the one outcome `Illegal` of the spec. -/
inductive IllegalWord where
  | reservedOpcode
  | unusedImmediate
  deriving DecidableEq, Repr

/-- `i` if the unused immediate bits are all 0, else the rejection (R74). -/
def legalIf (unusedAreZero : Bool) (i : Instr) : Except IllegalWord Instr :=
  if unusedAreZero then .ok i else .error .unusedImmediate

/-- `Decode(w)` of R74. -/
def decode (w : CmdWord) : Except IllegalWord Instr :=
  let op := opField w
  let imm := immField w
  if op = 0x1 then legalIf (imm == 0) .clr
  else if op = 0x2 then legalIf (imm.extractLsb' 1 11 == 0) (.push (imm.extractLsb' 0 1))
  else if op = 0x3 then legalIf (imm.extractLsb' 9 3 == 0) (.setpoly (imm.extractLsb' 0 9))
  else if op = 0x4 then .ok (.setmax imm)
  else if op = 0x5 then legalIf (imm.extractLsb' 8 4 == 0) (.setexp (imm.extractLsb' 0 8))
  else if op = 0x6 then legalIf (imm == 0) .crc
  else if op = 0x7 then legalIf (imm == 0) .solve
  else .error .reservedOpcode

/-- The word the table lays down for the command, its operand bits 0 (`match` of R71). -/
def matchBits : Instr → CmdWord
  | .clr => 0x1000
  | .push _ => 0x2000
  | .setpoly _ => 0x3000
  | .setmax _ => 0x4000
  | .setexp _ => 0x5000
  | .crc => 0x6000
  | .solve => 0x7000

/-- The immediate value of a command, 0 where it takes none (R73). -/
def immediate : Instr → CmdWord
  | .clr => 0
  | .push b => b.setWidth 16
  | .setpoly p => p.setWidth 16
  | .setmax m => m.setWidth 16
  | .setexp x => x.setWidth 16
  | .crc => 0
  | .solve => 0

/-- R73: "The encoding of a command with immediate value `v` is `match | v`." -/
def encode (i : Instr) : CmdWord := matchBits i ||| immediate i

/-- A row of the opcode map (R71): a word `w` is the row's command if and only if `w & mask == match`. -/
structure OpcodeRow where
  mnemonic : String
  matchWord : CmdWord
  mask : CmdWord
  deriving DecidableEq, Repr

/-- The opcode map of R71, as spec/opcode_table.json has it. -/
def opcodeTable : List OpcodeRow :=
  [ ⟨"CLR", 0x1000, 0xFFFF⟩,
    ⟨"PUSH", 0x2000, 0xFFFE⟩,
    ⟨"SETPOLY", 0x3000, 0xFE00⟩,
    ⟨"SETMAX", 0x4000, 0xF000⟩,
    ⟨"SETEXP", 0x5000, 0xFF00⟩,
    ⟨"CRC", 0x6000, 0xFFFF⟩,
    ⟨"SOLVE", 0x7000, 0xFFFF⟩ ]

/-- `w & mask == match` (R71). -/
def OpcodeRow.accepts (r : OpcodeRow) (w : CmdWord) : Bool := w &&& r.mask == r.matchWord

/-- The command word laid out from a table word `w` of `nbits` bits; every bit above `nbits` is 0. -/
def tableWord (nbits w : Nat) : CmdWord := BitVec.ofNat 16 (w % 2 ^ nbits)

/-- The command the decoder reads from an instruction whose bits are `w`, numbered as spec/opcode_table.json
numbers them. Every command is one 16-bit word (R70, R76), so an instruction of more bits is none (DESIGN CHOICE, log 6). -/
def decodeTableWord (nbits w : Nat) : Option Instr :=
  if nbits ≤ 16 then
    match decode (tableWord nbits w) with
    | .ok i => some i
    | .error _ => none
  else none

end Sys2Proof
end

