-- ==== Sys2Proof/Machine/Evaluator.lean ====
section
/-! DEFINITION. The CRC evaluator as functions on values (spec/40_crc_evaluator.md R100 to R109, R114;
spec/41_bit_error_solver.md R120 to R122). A bit sequence of length `n` is held in a bit vector of `w >= n` bits,
as `DATA` holds it; `w = n` gives the spec's `n`-bit values. -/

namespace Sys2Proof.Machine

/-- Bits `7 .. 0` of a value: `v[7:0]`. -/
def lowByte {w : Nat} (v : BitVec w) : Checksum := v.setWidth 8

/-- One iteration of the division scan at position `pos` (R101, R110):
"if `a[pos] == 1` then `a ^ (P << (pos - 8))`". -/
def divideBit {w : Nat} (P : Poly) (pos : Nat) (a : BitVec w) : BitVec w :=
  if a.getLsbD pos then a ^^^ (P.setWidth w <<< (pos - 8)) else a

/-- The scan over the `k` positions `k + 7` down to `8` (R101). -/
def divideFrom {w : Nat} (P : Poly) : Nat → BitVec w → BitVec w
  | 0, a => a
  | k + 1, a => divideFrom P k (divideBit P (k + 8) a)

/-- `Divide(v, n, P)`: the scan over positions `n-1` down to `8`, none when `n = 8` (R101). -/
def divide {w : Nat} (v : BitVec w) (n : Nat) (P : Poly) : BitVec w := divideFrom P (n - 8) v

/-- `crc8(v, n, P) = Divide(v, n, P)[7:0]` (R102). No initial value, no reflection, no final exclusive-or. -/
def crc8 {w : Nat} (v : BitVec w) (n : Nat) (P : Poly) : Checksum := lowByte (divide v n P)

/-- `lfsr_next(r, P) = trunc_8((r << 1) ^ (if r[7] == 1 then P else 0))` (R121). -/
def lfsrNext (r : Checksum) (P : Poly) : Checksum :=
  lowByte ((r.setWidth 9 <<< 1) ^^^ (if r.getLsbD 7 then P else 0))

/-- The serial form over the `k` positions `k-1` down to `0` of `v`, from register value `r` (R114). -/
def serialFrom {w : Nat} (v : BitVec w) (P : Poly) : Nat → Checksum → Checksum
  | 0, r => r
  | k + 1, r => serialFrom v P k (lfsrNext r P ^^^ (if v.getLsbD k then 1 else 0))

/-- The checksum by the 8-bit shift register alone (R114): "start `r = 0`; for each bit `b` of the sequence, first to
last, `r <- lfsr_next(r, P) ^ b`". -/
def serialCrc {w : Nat} (v : BitVec w) (n : Nat) (P : Poly) : Checksum := serialFrom v P n 0

/-- `delta(i, P) = crc8(2^i, n, P)`: the normative definition of the checksum delta (R120). -/
def delta (n i : Nat) (P : Poly) : Checksum := crc8 (BitVec.twoPow n i) n P

/-- The shift-register generation of the deltas (R121): `0x01`, then `lfsr_next` once a position. -/
def deltaGen (P : Poly) : Nat → Checksum
  | 0 => 0x01
  | i + 1 => lfsrNext (deltaGen P i) P

end Sys2Proof.Machine
end

