-- ==== Sys2Proof/Machine/Enumerator.lean ====
section
/-! DEFINITION. The bit-error solver as functions on values (spec/41_bit_error_solver.md R123 to R136, R147, R148).
An error pattern is the ascending list of its positions (R125). -/

namespace Sys2Proof.Machine

/-- The ascending `e`-tuples over the `m` positions `lo, lo+1, .. lo+m-1`, in ascending lexicographic order:
those that start with `lo` come first. -/
def combFrom : Nat → Nat → Nat → List (List Nat)
  | _, _, 0 => [[]]
  | 0, _, _ + 1 => []
  | m + 1, lo, e + 1 => (combFrom m (lo + 1) e).map (fun t => lo :: t) ++ combFrom m (lo + 1) (e + 1)

/-- `Comb(n, e)`: every ascending `e`-tuple over `[0, n)`, in enumeration order (R126). -/
def comb (n e : Nat) : List (List Nat) := combFrom n 0 e

/-- Whether entry `j` of tuple `t` can still grow: `t_j < n - e + j` (R147, `J`), compared as integers. -/
def canGrow (n : Nat) (t : List Nat) (j : Nat) : Bool :=
  match t[j]? with
  | some x => decide (x + t.length < n + j)
  | none => false

/-- `max(J)`: the rightmost entry that can still grow, none when the tier is exhausted (R147). -/
def growIndex (n : Nat) (t : List Nat) : Option Nat := (List.range t.length).reverse.find? (canGrow n t)

/-- Add 1 to entry `j`, and set every entry to its right to consecutive values after it (R147). -/
def raiseAt (t : List Nat) (j : Nat) : List Nat :=
  match t[j]? with
  | some x => t.mapIdx fun k y => if k < j then y else x + 1 + (k - j)
  | none => t

/-- The next tuple of the tier in enumeration order, none after the last (R147, R148). -/
def successor (n : Nat) (t : List Nat) : Option (List Nat) := (growIndex n t).map (raiseAt t)

/-- `OR_{j<e} (1 << t_j)`: the bits a pattern flips (R128, R144). -/
def flipMask (w : Nat) : List Nat → BitVec w
  | [] => 0
  | i :: t => BitVec.twoPow w i ||| flipMask w t

/-- `flip(c, t) = c ^ (2^{t_0} | .. | 2^{t_{e-1}})` (R128). -/
def flipBits {w : Nat} (c : BitVec w) (t : List Nat) : BitVec w := c ^^^ flipMask w t

/-- `XOR_{j<e} delta(t_j, P)`, 0 for the empty pattern. -/
def deltaSum (n : Nat) (P : Poly) : List Nat → Checksum
  | [] => 0
  | i :: t => delta n i P ^^^ deltaSum n P t

/-- `syn(b, t, P) = b ^ XOR_{j<e} delta(t_j, P)` (R127). -/
def syn (n : Nat) (b : Checksum) (t : List Nat) (P : Poly) : Checksum := b ^^^ deltaSum n P t

/-- The results of the patterns `ts`, in their order: those that match `x`, each with its flipped codeword and that
codeword's recomputed checksum (R127, R128). -/
def resultsOf {w : Nat} (c : BitVec w) (n : Nat) (P : Poly) (x : Checksum) (ts : List (List Nat)) :
    List (BitVec w × Checksum) :=
  (ts.filter fun t => syn n (crc8 c n P) t P == x).map fun t => (flipBits c t, crc8 (flipBits c t) n P)

/-- The matches of tier `e`, in order (R131). -/
def tierResults {w : Nat} (c : BitVec w) (n : Nat) (P : Poly) (x : Checksum) (e : Nat) :
    List (BitVec w × Checksum) := resultsOf c n P x (comb n e)

/-- `Solve(c, n, P, m, x)`: tiers `0 .. min(m, n)`, smallest first (R124, R130). -/
def solve {w : Nat} (c : BitVec w) (n : Nat) (P : Poly) (m : Nat) (x : Checksum) : List (BitVec w × Checksum) :=
  (List.range (min m n + 1)).flatMap (tierResults c n P x)

end Sys2Proof.Machine
end

