-- ==== Sys2Proof/Config.lean ====
section
/-! DEFINITION. What an implementation of the engine fixes (the parameter `NMAX`, spec/00_scope.md R8,
92_eei_decisions.md D1) and the free values behind what the spec leaves unspecified (R44, S2). Both are
constants without a body: nothing in Lean can evaluate them, so what is proved holds for every value. -/

namespace Sys2Proof

/-- How far this engine's `NMAX` lies above its least legal value 8: any number from 0 to 4087.
An implementation parameter without a body (R8: `NMAX` is OPEN, `8 <= NMAX <= 4095`; DESIGN CHOICE, log 1; safe). -/
opaque Config.nmaxSurplus : Fin 4088

/-- `NMAX`, the longest bit sequence the engine holds (R8). Fixed for a given engine, not state (R45).
Its range `8 <= NMAX <= 4095` is `Laws.nmax_ge` and `Laws.nmax_le`. -/
def Config.nmax : Nat := Config.nmaxSurplus.val + 8

/-- The registers and table entries whose value after reset the spec leaves unspecified (R44). -/
inductive FreeReg where
  | resCw | resCrc | acc | pos | base | lfsr | di
  | delta (i : Nat)
  | e
  | idx (j : Nat)
  | syn | cand
  deriving DecidableEq, Repr

/-- The value of `w` bits an unspecified register `r` holds after the `draw`-th reset: a free value, with
no body. R44: "A model should treat an unspecified value as any value (a draw), not as zero" (DESIGN CHOICE, log 3; safe). -/
opaque Config.unspecified (w : Nat) (r : FreeReg) (draw : Nat) : BitVec w

end Sys2Proof
end

