-- ==== Sys2Proof/Machine/State.lean ====
section
/-! DEFINITION. The state of the machine as plain data (spec/10_state.md R20 to R45), the reasons a step can
stop, and the machine right after reset (R44, spec/70_reset_and_hazards.md R200). `Engine n` is the engine with
`NMAX = n`, exactly the spec's state; `State` is the engine of this configuration together with what the world
outside drives on its input ports. -/

namespace Sys2Proof.Machine

/-- The eight values of the sequencer register `PHASE` (R30). They have no numeric encoding. -/
inductive Phase where
  | idle | cDiv | sDelta | sBase | sEval | sVerify | sEmit | sNext
  deriving DecidableEq, Repr

/-- The causes of an error (R181). `invalidBound` is kept because the spec keeps its code; nothing raises it
(R185). -/
inductive Cause where
  | invalidWidth | invalidBound | lengthOverflow | illegalCommand
  deriving DecidableEq, Repr

/-- Where a micro-step stops the model, only in states no run reaches. The errors of the spec are no faults of
the model: they are next states with `ERR` written (R183). -/
inductive Fault where
  /-- Raised by `DIVSTEP` where its requirement `8 <= POS <= LEN-1` (R110) does not hold. Safe: the spec gives the
  micro-step no meaning there and no run reaches it (R42(iii); DEDUCED, log 7). -/
  | divisionPosition
  /-- Raised by `S_DELTA`, `S_EVAL` and `S_NEXT` where an index of `DELTA` or `IDX` is not below `NMAX`. Safe:
  R35, "there is no out-of-range access to define", and no run reaches it (R42; DEDUCED, log 7). -/
  | tableIndex
  deriving DecidableEq, Repr

/-- What the model gives no meaning. -/
inductive Refusal where
  /-- Raised by an arm of `exec` whose instruction has no meaning yet. Safe. -/
  | notModelled (mnemonic : String)
  /-- Raised by `cycle` when the host changes a word it offers before it is accepted. Safe: R172 forbids it to the
  host and 93_implementation_defined.md S10 says to refuse it (DEDUCED, log 5). -/
  | commandWordChanged
  deriving DecidableEq, Repr

/-- The levels of the input ports in one step (R41). -/
structure Inputs where
  rst : Bool
  cmdValid : Bool
  cmdWord : CmdWord
  resReady : Bool
  deriving DecidableEq, Repr

/-- Every input port at 0: nothing offered, nothing accepted, no reset. -/
def Inputs.quiet : Inputs := { rst := false, cmdValid := false, cmdWord := 0, resReady := false }

/-- The engine with `NMAX = n`: every register and table of R20. -/
structure Engine (n : Nat) where
  /-- `DATA` (R22). -/
  data : BitVec n
  /-- `LEN` (R23). -/
  len : Count
  /-- `POLY` (R24). -/
  poly : Poly
  /-- `MAXERR` (R25). -/
  maxerr : Count
  /-- `EXPECTED` (R26). -/
  expected : Checksum
  /-- `CRC` (R27). -/
  crc : Checksum
  /-- `CRCV` (R27). -/
  crcv : Bool
  /-- `ERR` (R28). -/
  err : ErrCode
  /-- `RESV` (R29). -/
  resv : Bool
  /-- `RES_CW` (R29). -/
  resCw : BitVec n
  /-- `RES_CRC` (R29). -/
  resCrc : Checksum
  /-- `PHASE` (R30). -/
  phase : Phase
  /-- `ACC` (R31). -/
  acc : BitVec n
  /-- `POS` (R32). -/
  pos : Count
  /-- `BASE` (R33). -/
  base : Checksum
  /-- `LFSR` (R34). -/
  lfsr : Checksum
  /-- `DI` (R34). -/
  di : Count
  /-- `DELTA[0 .. NMAX-1]` (R35). -/
  delta : Vector Checksum n
  /-- `E` (R36). -/
  e : Count
  /-- `IDX[0 .. NMAX-1]` (R37). -/
  idx : Vector Count n
  /-- `SYN` (R38). -/
  syn : Checksum
  /-- `CAND` (R39). -/
  cand : BitVec n
  deriving DecidableEq, Repr

/-- The machine: the engine, and the world outside it. `inputs` and `draws` are the model's own fields. -/
structure State where
  /-- The engine's registers and tables, `NMAX` being this configuration's. -/
  engine : Engine Config.nmax
  /-- What the input ports carry in the coming steps, the next step's first; when it is used up, every input is 0
  (DESIGN CHOICE, log 2). -/
  inputs : List Inputs
  /-- How many resets have drawn unspecified values (DESIGN CHOICE, log 4). -/
  draws : Nat
  deriving DecidableEq, Repr

/-- Right after reset: every register at its reset value (R44), the unspecified ones at free values (DESIGN CHOICE, log 3),
nothing on the input ports. -/
def State.reset : State where
  engine :=
    { data := 0
      len := 0
      poly := 0x107
      maxerr := 0
      expected := 0x00
      crc := 0x00
      crcv := false
      err := 0
      resv := false
      resCw := Config.unspecified Config.nmax .resCw 0
      resCrc := Config.unspecified 8 .resCrc 0
      phase := .idle
      acc := Config.unspecified Config.nmax .acc 0
      pos := Config.unspecified 12 .pos 0
      base := Config.unspecified 8 .base 0
      lfsr := Config.unspecified 8 .lfsr 0
      di := Config.unspecified 12 .di 0
      delta := Vector.ofFn fun i => Config.unspecified 8 (.delta i.val) 0
      e := Config.unspecified 12 .e 0
      idx := Vector.ofFn fun j => Config.unspecified 12 (.idx j.val) 0
      syn := Config.unspecified 8 .syn 0
      cand := Config.unspecified Config.nmax .cand 0 }
  inputs := []
  draws := 1

end Sys2Proof.Machine
end

