-- ==== Sys2Proof/Machine/Ops.lean ====
section
/-! DEFINITION. The named operations on the engine's registers that the rules share: raising an error and leaving
the error state (spec/60_exceptions.md R183, R192), reset (spec/70_reset_and_hazards.md R200), `DIVSTEP`
(spec/40_crc_evaluator.md R110), `emit` (spec/41_bit_error_solver.md R141), the release of a result
(spec/42_host_commands.md R170), and the acceptance of a command (R160). -/

namespace Sys2Proof.Machine

/-- What a step answers, for a machine state `σ`. -/
abbrev Answer (σ : Type) := Host.Outcome σ Fault Refusal

/-- The code of a cause, the value written to `ERR` (R181). -/
def causeCode : Cause → ErrCode
  | .invalidWidth => 1
  | .invalidBound => 2
  | .lengthOverflow => 3
  | .illegalCommand => 4

/-- `raise X`: "if ERR == 0 then ERR <- code(X)", and nothing else changes; the first error wins (R183, R191).
This is the engine's whole exception entry: nothing is saved and control goes nowhere. -/
def raise {n : Nat} (c : Cause) (e : Engine n) : Engine n :=
  if e.err = 0 then { e with err := causeCode c } else e

/-- The return from the error state, and the soft reset `CLR` (R161, R192): every host-written and status register to
its reset value; working registers, `RESV`, `RES_CW`, `RES_CRC` and `PHASE` are not touched. -/
def clearEngine {n : Nat} (e : Engine n) : Engine n :=
  { e with data := 0, len := 0, poly := 0x107, maxerr := 0, expected := 0x00, crc := 0x00, crcv := false, err := 0 }

/-- The engine after a reset step (R200): the registers of R44 that have a reset value hold it, whatever the engine
held before; each unspecified one holds the free value of this draw (DESIGN CHOICE, log 3). -/
def resetEngine (n draw : Nat) : Engine n where
  data := 0
  len := 0
  poly := 0x107
  maxerr := 0
  expected := 0x00
  crc := 0x00
  crcv := false
  err := 0
  resv := false
  resCw := Config.unspecified n .resCw draw
  resCrc := Config.unspecified 8 .resCrc draw
  phase := .idle
  acc := Config.unspecified n .acc draw
  pos := Config.unspecified 12 .pos draw
  base := Config.unspecified 8 .base draw
  lfsr := Config.unspecified 8 .lfsr draw
  di := Config.unspecified 12 .di draw
  delta := Vector.ofFn fun i => Config.unspecified 8 (.delta i.val) draw
  e := Config.unspecified 12 .e draw
  idx := Vector.ofFn fun j => Config.unspecified 12 (.idx j.val) draw
  syn := Config.unspecified 8 .syn draw
  cand := Config.unspecified n .cand draw

/-- The start of a division: `ACC <- v; POS <- LEN - 1` (R111, R142, R144). -/
def loadDivision {n : Nat} (v : BitVec n) (e : Engine n) : Engine n :=
  { e with acc := v, pos := e.len - 1 }

/-- `DIVSTEP` (R110): one iteration of the scan on `ACC` and `POS`. It "requires 8 <= POS <= LEN-1"; elsewhere, in
states no run reaches, it faults (DEDUCED, log 7). -/
def divStep {n : Nat} (e : Engine n) : Answer (Engine n) :=
  if 8 ≤ e.pos.toNat ∧ e.pos.toNat < e.len.toNat then
    .next { e with acc := divideBit e.poly e.pos.toNat e.acc, pos := e.pos - 1 }
  else .fault .divisionPosition

/-- `emit(cw, k)`: `RES_CW <- cw; RES_CRC <- k; RESV <- 1` (R141). -/
def emit {n : Nat} (cw : BitVec n) (k : Checksum) (e : Engine n) : Engine n :=
  { e with resCw := cw, resCrc := k, resv := true }

/-- The acceptance of a result by the host: `RESV <- 0; PHASE <- S_NEXT` (R170). -/
def releaseResult {n : Nat} (e : Engine n) : Engine n :=
  { e with resv := false, phase := .sNext }

/-- The machine with its engine replaced. -/
def withEngine (s : State) (e : Engine Config.nmax) : State := { s with engine := e }

/-- The machine once the levels of one step have been on the input ports. -/
def consumeInputs (s : State) : State := { s with inputs := s.inputs.tail }

/-- A reset step of the machine (R200). -/
def resetStep (s : State) : State :=
  { s with engine := resetEngine Config.nmax s.draws, draws := s.draws + 1 }

/-- A command whose rule is `f`, offered to the engine (R160): accepted, all in one step, when `PHASE = IDLE`; else
"it has no effect and is not remembered". -/
def offerCommand (f : Engine Config.nmax → Engine Config.nmax) (s : State) : Answer State :=
  .next (if s.engine.phase = .idle then withEngine s (f s.engine) else s)

/-- What the machine answers when its engine answers `o`. -/
def liftEngine (s : State) (o : Answer (Engine Config.nmax)) : Answer State :=
  match o with
  | .next e => .next (withEngine s e)
  | .fault r => .fault r
  | .refused r => .refused r

end Sys2Proof.Machine
end

