-- ==== Sys2Proof/Machine/Flags.lean ====
section
/-! DEFINITION. The status flags and the output ports (spec/10_state.md R40, R41). The engine has no arithmetic
condition codes: its flags are `busy`, `CRCV`, `RESV` and `ERR != 0`. Reading an output has no side effect (R57). -/

namespace Sys2Proof.Machine

/-- `busy = (PHASE != IDLE)` (R30, R40). -/
def busy {n : Nat} (e : Engine n) : Bool := e.phase != .idle

/-- `cmd_ready = (PHASE == IDLE)` (R41, R160). -/
def cmdReady {n : Nat} (e : Engine n) : Bool := e.phase == .idle

/-- `ERR != 0`: `PUSH`, `CRC` and `SOLVE` are gated (R188). -/
def gated {n : Nat} (e : Engine n) : Bool := e.err != 0

/-- The output ports (R41). -/
structure Outputs (n : Nat) where
  cmdReady : Bool
  resValid : Bool
  resCodeword : BitVec n
  resCrc : Checksum
  busy : Bool
  err : ErrCode
  crcValid : Bool
  crc : Checksum
  len : Count
  deriving DecidableEq, Repr

/-- "Output ports are plain functions of the registers" (R41). -/
def outputs {n : Nat} (e : Engine n) : Outputs n where
  cmdReady := cmdReady e
  resValid := e.resv
  resCodeword := e.resCw
  resCrc := e.resCrc
  busy := busy e
  err := e.err
  crcValid := e.crcv
  crc := e.crc
  len := e.len

end Sys2Proof.Machine
end

