-- ==== Sys2Proof/Machine/Operands.lean ====
section
/-! DEFINITION. The operand forms: the bit a `PUSH` moves in (spec/42_host_commands.md R162, R52), and the entries
of the tables `DELTA` and `IDX` (spec/10_state.md R35, R37). The immediates of `SETPOLY`, `SETMAX` and `SETEXP` are
as wide as the registers they are written to (spec/30_encoding.md R73), so they are used as they stand. A table
operand answers `none` where an index is not below `NMAX`; the micro-step that asked then faults (DEDUCED, log 7). -/

namespace Sys2Proof.Machine

/-- `trunc_NMAX((DATA << 1) | b)` (R162): every bit one position up, `b` at position 0. -/
def shiftIn {n : Nat} (d : BitVec n) (b : BitVec 1) : BitVec n := (d <<< 1) ||| b.setWidth n

/-- The current error pattern `(IDX[0], .. IDX[E-1])` (R37, R144). -/
def currentPattern {n : Nat} (e : Engine n) : Option (List Nat) :=
  if e.e.toNat ≤ n then some ((e.idx.toList.take e.e.toNat).map BitVec.toNat) else none

/-- `XOR_{j<E} DELTA[t_j]`, 0 for the empty pattern (R144). -/
def tableSum {n : Nat} (table : Vector Checksum n) : List Nat → Option Checksum
  | [] => some 0
  | i :: t =>
    match table[i]?, tableSum table t with
    | some d, some s => some (d ^^^ s)
    | _, _ => none

/-- `IDX[k] <- t_k` for every entry of the tuple; the entries beyond it keep their value (R147). -/
def storePattern {n : Nat} (idx : Vector Count n) (t : List Nat) : Vector Count n :=
  idx.mapIdx fun k old =>
    match t[k]? with
    | some p => BitVec.ofNat 12 p
    | none => old

end Sys2Proof.Machine
end

