-- ==== Sys2Proof/Machine/HostCommands.lean ====
section
/-! DEFINITION. The operand commands `CLR`, `PUSH`, `SETPOLY`, `SETMAX`, `SETEXP` and the word that spells no command
(spec/42_host_commands.md R161 to R168). Each rule is a function on the engine; the command is that rule offered
under R160. -/

namespace Sys2Proof.Machine

/-- `PUSH b` at acceptance (R162, R163, R188): nothing while `ERR != 0`; `LengthOverflow` at `LEN = NMAX`; else the bit is
appended at position 0. -/
def pushBit {n : Nat} (b : BitVec 1) (e : Engine n) : Engine n :=
  if gated e then e
  else if e.len.toNat = n then raise .lengthOverflow e
  else { e with data := shiftIn e.data b, len := e.len + 1 }

/-- `POLY <- p` (R164). -/
def setPoly {n : Nat} (p : Poly) (e : Engine n) : Engine n := { e with poly := p }

/-- `MAXERR <- m` (R165). -/
def setMax {n : Nat} (m : Count) (e : Engine n) : Engine n := { e with maxerr := m }

/-- `EXPECTED <- x` (R166). -/
def setExp {n : Nat} (x : Checksum) (e : Engine n) : Engine n := { e with expected := x }

/-- `CLR` (R161). Not gated. -/
def execClr (s : State) : Answer State := offerCommand clearEngine s

/-- `PUSH b` (R162). -/
def execPush (b : BitVec 1) (s : State) : Answer State := offerCommand (pushBit b) s

/-- `SETPOLY p` (R164). Not gated. -/
def execSetpoly (p : Poly) (s : State) : Answer State := offerCommand (setPoly p) s

/-- `SETMAX m` (R165). Not gated. -/
def execSetmax (m : Count) (s : State) : Answer State := offerCommand (setMax m) s

/-- `SETEXP x` (R166). Not gated. -/
def execSetexp (x : Checksum) (s : State) : Answer State := offerCommand (setExp x) s

/-- An illegal word, accepted like any command, raises `IllegalCommand` and writes no other state (R168, R187). -/
def illegalCommand (s : State) : Answer State := offerCommand (raise .illegalCommand) s

end Sys2Proof.Machine
end

