-- ==== Sys2Proof/Machine/CrcCommand.lean ====
section
/-! DEFINITION. The command `CRC` and its phase `C_DIV` (spec/40_crc_evaluator.md R111, R112). -/

namespace Sys2Proof.Machine

/-- `CRC` at acceptance (R111, R188, R184): `CRCV <- 0`; then nothing more while `ERR != 0`; `InvalidWidth` when
`LEN < 8`; else the division of `DATA` starts. -/
def startCrc {n : Nat} (e : Engine n) : Engine n :=
  let cleared := { e with crcv := false }
  if gated e then cleared
  else if e.len.toNat < 8 then raise .invalidWidth cleared
  else { loadDivision e.data cleared with phase := .cDiv }

/-- One micro-step of `C_DIV` (R112). -/
def cDivStep {n : Nat} (e : Engine n) : Answer (Engine n) :=
  if e.pos ≠ 7 then divStep e
  else .next { e with crc := lowByte e.acc, crcv := true, phase := .idle }

/-- `CRC` (R111). -/
def execCrc (s : State) : Answer State := offerCommand startCrc s

end Sys2Proof.Machine
end

