-- ==== Sys2Proof/Machine/SolveCommand.lean ====
section
/-! DEFINITION. The command `SOLVE` and its phases (spec/41_bit_error_solver.md R140 to R149). -/

namespace Sys2Proof.Machine

/-- `SOLVE` at acceptance (R140, R188, R184): nothing while `ERR != 0`; `InvalidWidth` when `LEN < 8`; else the delta
table is started. -/
def startSolve {n : Nat} (e : Engine n) : Engine n :=
  if gated e then e
  else if e.len.toNat < 8 then raise .invalidWidth e
  else { e with lfsr := 0x01, di := 0, phase := .sDelta }

/-- One micro-step of `S_DELTA` (R142). -/
def sDeltaStep {n : Nat} (e : Engine n) : Answer (Engine n) :=
  if e.di.toNat < e.len.toNat then
    if h : e.di.toNat < n then
      .next { e with delta := e.delta.set e.di.toNat e.lfsr h, lfsr := lfsrNext e.lfsr e.poly, di := e.di + 1 }
    else .fault .tableIndex
  else .next { loadDivision e.data e with phase := .sBase }

/-- One micro-step of `S_BASE` (R143). -/
def sBaseStep {n : Nat} (e : Engine n) : Answer (Engine n) :=
  if e.pos ≠ 7 then divStep e
  else .next { e with base := lowByte e.acc, e := 0, phase := .sEval }

/-- One micro-step of `S_EVAL`, whatever `E` is (R144): the pattern's checksum, and on a match the candidate codeword
with its division started. -/
def sEvalStep {n : Nat} (e : Engine n) : Answer (Engine n) :=
  match currentPattern e with
  | none => .fault .tableIndex
  | some t =>
    match tableSum e.delta t with
    | none => .fault .tableIndex
    | some d =>
      let s := e.base ^^^ d
      if s = e.expected then
        .next { loadDivision (flipBits e.data t) e with syn := s, cand := flipBits e.data t, phase := .sVerify }
      else .next { e with syn := s, phase := .sNext }

/-- One micro-step of `S_VERIFY` (R145). -/
def sVerifyStep {n : Nat} (e : Engine n) : Answer (Engine n) :=
  if e.pos ≠ 7 then divStep e
  else .next { emit e.cand (lowByte e.acc) e with phase := .sEmit }

/-- `S_EMIT` (R146, R170): the sequencer has no micro-step; the engine holds until a step in which `res_valid = 1` and
`res_ready = 1`, in which the result is accepted. -/
def sEmitStep {n : Nat} (resReady : Bool) (e : Engine n) : Engine n :=
  if resReady && e.resv then releaseResult e else e

/-- One micro-step of `S_NEXT` (R147): the next pattern of the tier, else the end of the search, else the first pattern
of the next tier. -/
def sNextStep {n : Nat} (e : Engine n) : Answer (Engine n) :=
  match currentPattern e with
  | none => .fault .tableIndex
  | some t =>
    match successor e.len.toNat t with
    | some t' => .next { e with idx := storePattern e.idx t', phase := .sEval }
    | none =>
      if e.e = e.maxerr ∨ e.e = e.len then .next { e with phase := .idle }
      else if e.e.toNat < n then
        .next { e with e := e.e + 1, idx := storePattern e.idx (List.range (e.e.toNat + 1)), phase := .sEval }
      else .fault .tableIndex

/-- `SOLVE` (R140). -/
def execSolve (s : State) : Answer State := offerCommand startSolve s

end Sys2Proof.Machine
end

