-- ==== Sys2Proof/Machine/Channels.lean ====
section
/-! DEFINITION. One step of the machine (spec/00_scope.md R13): which agent moves, given what the input ports carry.
Reset overrides everything (spec/60_exceptions.md R190); in `IDLE` only the host has a step, the acceptance of a
command (spec/42_host_commands.md R160); in `S_EMIT` only the host has one, the acceptance of a result (R170); in every
other phase the sequencer takes one micro-step. -/

namespace Sys2Proof.Machine

/-- What the input ports carry in this step; every port is 0 when the host has nothing left to drive (DESIGN CHOICE, log 2). -/
def currentInputs (s : State) : Inputs := s.inputs.headD Inputs.quiet

/-- Whether the host offers a word in this step and a different one in the next, without a reset in it (R172,
93_implementation_defined.md S10). -/
def wordChanged (s : State) : Bool :=
  match s.inputs with
  | p :: q :: _ => p.cmdValid && q.cmdValid && !q.rst && p.cmdWord != q.cmdWord
  | _ => false

/-- The step of an engine to which no command is offered that it could accept, and which is not reset: the step its
phase gives it. In `IDLE` it waits (R195). -/
def engineStep {n : Nat} (resReady : Bool) (e : Engine n) : Answer (Engine n) :=
  match e.phase with
  | .idle => .next e
  | .cDiv => cDivStep e
  | .sDelta => sDeltaStep e
  | .sBase => sBaseStep e
  | .sEval => sEvalStep e
  | .sVerify => sVerifyStep e
  | .sEmit => .next (sEmitStep resReady e)
  | .sNext => sNextStep e

/-- An accepted word `w` is decoded and "the rule of the decoded command is applied, all in the same step" (R160);
`run` runs a decoded command. -/
def commandStep (run : Instr → State → Answer State) (w : CmdWord) (s : State) : Answer State :=
  match decode w with
  | .ok i => run i s
  | .error _ => illegalCommand s

/-- One step (R13). A command offered while the engine is busy is not accepted and has no effect (R160); a host that then
changes the word is refused (R172; DEDUCED, log 5). -/
def cycle (run : Instr → State → Answer State) (s : State) : Answer State :=
  let p := currentInputs s
  let t := consumeInputs s
  if p.rst then .next (resetStep t)
  else if p.cmdValid && cmdReady s.engine then commandStep run p.cmdWord t
  else if wordChanged s then .refused .commandWordChanged
  else liftEngine t (engineStep p.resReady t.engine)

/-- The machine with its engine idle and the word `w` offered in the next step; what the host drives after it is as it
was (DESIGN CHOICE, log 6). -/
def offerWord (w : CmdWord) (s : State) : State :=
  { s with
    engine := { s.engine with phase := .idle }
    inputs := { rst := false, cmdValid := true, cmdWord := w, resReady := false } :: s.inputs }

end Sys2Proof.Machine
end

