-- ==== Sys2Proof/Machine/Dispatch.lean ====
section
/-! DEFINITION. What each instruction does when the host offers it: one arm a constructor of `Instr`. -/

namespace Sys2Proof.Machine

def exec (i : Instr) (s : State) : Host.Outcome State Fault Refusal :=
  match i with
  | .clr => Sys2Proof.Machine.execClr s
  | .push b => Sys2Proof.Machine.execPush b s
  | .setpoly p => Sys2Proof.Machine.execSetpoly p s
  | .setmax m => Sys2Proof.Machine.execSetmax m s
  | .setexp x => Sys2Proof.Machine.execSetexp x s
  | .crc => Sys2Proof.Machine.execCrc s
  | .solve => Sys2Proof.Machine.execSolve s

end Sys2Proof.Machine
end

