-- ==== Sys2Proof/Machine/Step.lean ====
section
/-! DEFINITION. The step of the machine, and how a word of the opcode table is put where the next step reads its
command. -/

namespace Sys2Proof.Machine

/-- One step of the machine (R13): `cycle` with every command run by `exec`. -/
def step (s : State) : Host.Outcome State Fault Refusal := Sys2Proof.Machine.cycle Sys2Proof.Machine.exec s

/-- `s` with the command word of table bits `w` offered to an idle engine, so that the very next step accepts it. -/
def State.withFetchWord (s : State) (nbits w : Nat) : State :=
  Sys2Proof.Machine.offerWord (Sys2Proof.tableWord nbits w) s

end Sys2Proof.Machine
end

