-- ==== Sys2Proof/Machine/Assembler.lean ====
section
/-! DEFINITION. The notation in which command sequences are written down (spec/30_encoding.md R80, R84). It is no part of
the engine: it turns lines of text into the words the host sends, in the order written. What R80 leaves open about
blanks, digits and quotes is fixed here (DESIGN CHOICE, log 12). -/

namespace Sys2Proof.Machine

/-- R84: one `PUSH 0` for each character `'0'` and one `PUSH 1` for each `'1'`, left to right; every other character is
skipped. -/
def pushesOf : List Char → List Instr
  | [] => []
  | c :: cs =>
    if c = '0' then .push 0 :: pushesOf cs
    else if c = '1' then .push 1 :: pushesOf cs
    else pushesOf cs

/-- The commands a written command stands for (R84: the pseudo-instructions expand to `PUSH`). -/
def expand : SourceCommand → List Instr
  | .clr => [.clr]
  | .push b => [.push (BitVec.ofNat 1 b)]
  | .setpoly p => [.setpoly (BitVec.ofNat 9 p)]
  | .setmax m => [.setmax (BitVec.ofNat 12 m)]
  | .setexp x => [.setexp (BitVec.ofNat 8 x)]
  | .crc => [.crc]
  | .solve => [.solve]
  | .pushs text => pushesOf text
  | .pad8 => List.replicate 8 (.push 0)

/-- The words of a sequence of written commands, none (an assembly error) if an operand is out of range (R80). -/
def assemble : List SourceCommand → Option (List CmdWord)
  | [] => some []
  | c :: cs =>
    match assemble cs with
    | some ws => if c.wellFormed then some ((expand c).map encode ++ ws) else none
    | none => none

/-- A blank between the parts of a line. -/
def isBlank (c : Char) : Bool := c == ' ' || c == '\t'

/-- The value of a digit of base at most 16. -/
def digitValue (c : Char) : Option Nat :=
  if '0'.toNat ≤ c.toNat ∧ c.toNat ≤ '9'.toNat then some (c.toNat - '0'.toNat)
  else if 'a'.toNat ≤ c.toNat ∧ c.toNat ≤ 'f'.toNat then some (c.toNat - 'a'.toNat + 10)
  else if 'A'.toNat ≤ c.toNat ∧ c.toNat ≤ 'F'.toNat then some (c.toNat - 'A'.toNat + 10)
  else none

/-- The number whose digits to `base` follow the number read so far. -/
def parseDigits (base : Nat) : Nat → List Char → Option Nat
  | acc, [] => some acc
  | acc, c :: cs =>
    match digitValue c with
    | some d => if d < base then parseDigits base (acc * base + d) cs else none
    | none => none

/-- An operand, "in decimal, `0x` hexadecimal or `0b` binary" (R80). -/
def parseNumber : List Char → Option Nat
  | [] => none
  | '0' :: 'x' :: c :: cs => parseDigits 16 0 (c :: cs)
  | '0' :: 'b' :: c :: cs => parseDigits 2 0 (c :: cs)
  | cs => parseDigits 10 0 cs

/-- The command of a mnemonic and its operand, none where the mnemonic is no command or takes an operand and has none,
or the reverse. -/
def sourceCommand (mnemonic : List Char) (operand : Option Nat) : Option SourceCommand :=
  if mnemonic = "CLR".toList then (if operand = none then some .clr else none)
  else if mnemonic = "PUSH".toList then operand.map .push
  else if mnemonic = "SETPOLY".toList then operand.map .setpoly
  else if mnemonic = "SETMAX".toList then operand.map .setmax
  else if mnemonic = "SETEXP".toList then operand.map .setexp
  else if mnemonic = "CRC".toList then (if operand = none then some .crc else none)
  else if mnemonic = "SOLVE".toList then (if operand = none then some .solve else none)
  else if mnemonic = "PAD8".toList then (if operand = none then some .pad8 else none)
  else none

/-- Whether nothing but blanks and a comment is left of a line. -/
def endOfLine (cs : List Char) : Bool :=
  match cs.dropWhile isBlank with
  | [] => true
  | c :: _ => c == ';'

/-- The quoted text after `PUSHS`. -/
def parseText (cs : List Char) : Option SourceCommand :=
  match cs with
  | '"' :: rest =>
    let text := rest.takeWhile (fun c => c != '"')
    match rest.drop text.length with
    | '"' :: after => if endOfLine after then some (.pushs text) else none
    | _ => none
  | _ => none

/-- The operand of a line after its mnemonic, if it has one: the text up to a comment. -/
def parseOperand (cs : List Char) : Option (Option Nat) :=
  let text := ((cs.takeWhile (fun c => c != ';')).reverse.dropWhile isBlank).reverse
  if text = [] then some none else (parseNumber text).map some

/-- One line (R80): a command, or nothing but blanks and a comment. -/
def parseLine (line : List Char) : Option (List SourceCommand) :=
  let start := line.dropWhile isBlank
  let mnemonic := start.takeWhile (fun c => !isBlank c && c != ';')
  let rest := (start.drop mnemonic.length).dropWhile isBlank
  if mnemonic = [] then some []
  else if mnemonic = "PUSHS".toList then (parseText rest).map (fun c => [c])
  else
    match parseOperand rest with
    | some operand => (sourceCommand mnemonic operand).map (fun c => [c])
    | none => none

/-- The written commands of the lines of a text, in order, none if a line is in error. -/
def parseLines : List (List Char) → Option (List SourceCommand)
  | [] => some []
  | l :: ls =>
    match parseLine l, parseLines ls with
    | some c, some cs => some (c ++ cs)
    | _, _ => none

/-- The words of a text given line by line, none where it holds an assembly error: "A sequence is sent word by word in
the order written" (R80). -/
def assembleText (lines : List (List Char)) : Option (List CmdWord) := (parseLines lines).bind assemble

end Sys2Proof.Machine
end

