-- ==== Sys2Proof/Safety.lean ====
section
/-! DEFINITION. The terms in which claims about the machine are stated: the states its invariants allow
(spec/10_state.md R42), what makes a held result exact (spec/41_bit_error_solver.md R128, R135, R145), what the host must
keep to (spec/42_host_commands.md R172), and what the host observes (spec/10_state.md R43, R47). -/

namespace Sys2Proof.Machine

/-- The current error pattern as the first `E` entries of `IDX` (R37). -/
def patternOf {n : Nat} (e : Engine n) : List Nat := (e.idx.toList.take e.e.toNat).map BitVec.toNat

/-- A pattern of positions below `len`: strictly ascending, every position in range (R125). -/
abbrev Pattern (len : Nat) (t : List Nat) : Prop := t.Pairwise (· < ·) ∧ ∀ i ∈ t, i < len

/-- The invariants of R42, with `LEN >= 8` in every busy phase (DEDUCED, log 11). -/
structure Legal {n : Nat} (e : Engine n) : Prop where
  /-- R42(i). -/
  len_le : e.len.toNat ≤ n
  /-- R42(i). -/
  data_lt : e.data.toNat < 2 ^ e.len.toNat
  /-- R42(ii). -/
  resv_iff : e.resv = true ↔ e.phase = .sEmit
  /-- R42(iii). -/
  dividing : e.phase = .cDiv ∨ e.phase = .sBase ∨ e.phase = .sVerify →
    7 ≤ e.pos.toNat ∧ e.pos.toNat < e.len.toNat ∧ e.acc.toNat < 2 ^ e.len.toNat
  /-- R42(iv). -/
  searching : e.phase = .sEval ∨ e.phase = .sVerify ∨ e.phase = .sEmit ∨ e.phase = .sNext →
    e.e.toNat ≤ min e.maxerr.toNat e.len.toNat ∧ Pattern e.len.toNat (patternOf e)
  /-- R42(v), during `S_DELTA`. -/
  filling : e.phase = .sDelta →
    e.di.toNat ≤ e.len.toNat ∧ e.lfsr = deltaGen e.poly e.di.toNat ∧
      ∀ i, i < e.di.toNat → e.delta[i]? = some (deltaGen e.poly i)
  /-- R42(v), in every later phase of the same `SOLVE`. -/
  filled : e.phase = .sBase ∨ e.phase = .sEval ∨ e.phase = .sVerify ∨ e.phase = .sEmit ∨ e.phase = .sNext →
    ∀ i, i < e.len.toNat → e.delta[i]? = some (deltaGen e.poly i)
  /-- R42(vi), and DEDUCED, log 11. -/
  working : e.phase ≠ .idle → e.err = 0 ∧ 8 ≤ e.len.toNat

/-- What the working registers stand for while the engine works: the division in progress is that of its operand, the
base checksum and the candidate are those of R123 and R128, and a held result is the candidate with its recomputed
checksum (R145). -/
structure Exact {n : Nat} (e : Engine n) : Prop where
  dividing : e.phase = .cDiv ∨ e.phase = .sBase →
    divideFrom e.poly (e.pos.toNat - 7) e.acc = divide e.data e.len.toNat e.poly
  based : e.phase = .sEval ∨ e.phase = .sVerify ∨ e.phase = .sEmit ∨ e.phase = .sNext →
    e.base = crc8 e.data e.len.toNat e.poly
  matched : e.phase = .sVerify ∨ e.phase = .sEmit →
    e.cand = flipBits e.data (patternOf e) ∧ Machine.syn e.len.toNat e.base (patternOf e) e.poly = e.expected
  verifying : e.phase = .sVerify →
    divideFrom e.poly (e.pos.toNat - 7) e.acc = divide e.cand e.len.toNat e.poly
  held : e.phase = .sEmit → e.resCw = e.cand ∧ e.resCrc = crc8 e.cand e.len.toNat e.poly

/-- Whether the step resets the engine. -/
def resets (s : State) : Bool := (currentInputs s).rst

/-- Whether the step accepts a command (R160). -/
def accepts (s : State) : Bool := !resets s && (currentInputs s).cmdValid && cmdReady s.engine

/-- The host's duty of R172 in this step: a word offered and not accepted is not changed. -/
def hostKeepsWord (s : State) : Bool := resets s || accepts s || !wordChanged s

/-- The result the host takes in this step, if it takes one (R170). -/
def accepted (s : State) : Option (BitVec Config.nmax × Checksum) :=
  if s.engine.phase = .sEmit ∧ s.engine.resv = true ∧ (currentInputs s).resReady = true ∧ resets s = false then
    some (s.engine.resCw, s.engine.resCrc)
  else none

/-- The results the host accepts in the next `k` steps, in order (R47). -/
def trace : Nat → State → List (BitVec Config.nmax × Checksum)
  | 0, _ => []
  | k + 1, s =>
    match step s with
    | .next t => (accepted s).toList ++ trace k t
    | .fault _ => []
    | .refused _ => []

/-- What the host may go by on the output ports: `res_codeword` and `res_crc` only while `res_valid = 1` (R29, R206). -/
def visible {n : Nat} (e : Engine n) : Outputs n :=
  if e.resv then outputs e else { outputs e with resCodeword := 0, resCrc := 0 }

/-- Two engines agree on every register that is no working register: classes (a) and (b) of R20, but for the result
register's contents while `RESV = 0`. -/
def SameRegisters {n : Nat} (a b : Engine n) : Prop :=
  a.data = b.data ∧ a.len = b.len ∧ a.poly = b.poly ∧ a.maxerr = b.maxerr ∧ a.expected = b.expected ∧
    a.crc = b.crc ∧ a.crcv = b.crcv ∧ a.err = b.err ∧ a.resv = b.resv ∧ a.phase = b.phase

/-- Every register that has a reset value holds it (R44, R200). -/
def AtResetValues {n : Nat} (e : Engine n) : Prop :=
  e.data = 0 ∧ e.len = 0 ∧ e.poly = 0x107 ∧ e.maxerr = 0 ∧ e.expected = 0x00 ∧ e.crc = 0x00 ∧ e.crcv = false ∧
    e.err = 0 ∧ e.resv = false ∧ e.phase = .idle

/-- In the next `k` steps the host neither resets the engine nor changes a word it offers (R172); it may offer words,
withdraw them, and raise or lower `res_ready` as it likes. -/
def HostKeepsOff (k : Nat) (s : State) : Prop :=
  ∀ i, i < k → resets { s with inputs := s.inputs.drop i } = false ∧ wordChanged { s with inputs := s.inputs.drop i } = false

/-- How many of the next `k` steps find a result offered and leave it unaccepted (R146): how long the host keeps the engine
waiting. -/
def waits : Nat → State → Nat
  | 0, _ => 0
  | k + 1, s =>
    match step s with
    | .next t => (if s.engine.phase = .sEmit ∧ (currentInputs s).resReady = false then 1 else 0) + waits k t
    | .fault _ => 0
    | .refused _ => 0

/-- A host that accepts every result and does nothing else. -/
def acceptAll : Inputs := { rst := false, cmdValid := false, cmdWord := 0, resReady := true }

/-- The number of set bits of a value. -/
def weight {w : Nat} (v : BitVec w) : Nat := ((List.range w).filter fun i => v.getLsbD i).length

/-- `T` of R137: how many patterns a search evaluates. -/
def patternCount (n m : Nat) : Nat := ((List.range (min m n + 1)).map fun e => (comb n e).length).sum

/-- The steps of a `SOLVE` of `n` bits with bound `m` that has `r` results: the micro-steps R211 counts, and one step for
each result accepted. -/
def solveSteps (n m r : Nat) : Nat := (n + 1) + (n - 7) + 2 * patternCount n m + r * (n - 7) + r

end Sys2Proof.Machine
end

