-- ==== Sys2Proof/Certificates/Slice0/Obligations.lean ====
section
/-! DEFINITION. The statements for the provers, from the numbered rules of spec/. A statement about `exec` or `step`
speaks of this configuration's `NMAX`, whatever it is; a statement about the functions and the micro-steps holds for
every length and register width. -/

open Sys2Proof Sys2Proof.Machine

/-! ### Encoding (30_encoding.md) -/

/-- Decoding an encoded command gives it back, every operand at every value (R71, R73, R74). -/
def Obligations.DecodeInvertsEncode : Prop := ∀ i : Instr, decode (encode i) = .ok i

/-- A legal word is the encoding of the command it decodes to: no bit of it is dropped (R73, R74). -/
def Obligations.EncodeInvertsDecode : Prop := ∀ (w : CmdWord) (i : Instr), decode w = .ok i → encode i = w

/-- A word is the command of a table row if and only if `w & mask == match`, and no word fits two rows (R71). -/
def Obligations.OpcodeTableSelectsCommand : Prop :=
  (∀ (w : CmdWord) (r : OpcodeRow), r ∈ opcodeTable →
    (r.accepts w = true ↔ ∃ i, decode w = .ok i ∧ i.mnemonic = r.mnemonic)) ∧
  (∀ (w : CmdWord) (r r' : OpcodeRow), r ∈ opcodeTable → r' ∈ opcodeTable →
    r.accepts w = true → r'.accepts w = true → r = r')

/-- There are 4869 legal words; the other 60667 are illegal (R71). -/
def Obligations.LegalWordCount : Prop :=
  ((List.range 65536).filter fun k => (decode (BitVec.ofNat 16 k)).toBool).length = 4869 ∧
  ((List.range 65536).filter fun k => !(decode (BitVec.ofNat 16 k)).toBool).length = 60667

/-- The encoding examples of R85, both ways, and its illegal words. -/
def Obligations.EncodingExamplesDecode : Prop :=
  (∀ p ∈ ([(.clr, 0x1000), (.push 1, 0x2001), (.push 0, 0x2000), (.setpoly 0x107, 0x3107), (.setpoly 0x11D, 0x311D),
      (.setmax 1, 0x4001), (.setmax 4095, 0x4FFF), (.setexp 0x5F, 0x505F), (.crc, 0x6000), (.solve, 0x7000)] :
      List (Instr × CmdWord)), encode p.1 = p.2 ∧ decode p.2 = .ok p.1) ∧
  (∀ w ∈ ([0x0000, 0x1001, 0x2002, 0x3200, 0x5100, 0x6001, 0x7FFF, 0x8000, 0xFFFF] : List CmdWord),
    (decode w).toBool = false)

/-- Exactly which words are illegal, and by which name (R74, R75): a reserved opcode, or a defined opcode with a non-zero
unused immediate bit. -/
def Obligations.IllegalWordsAreExactlyThese : Prop :=
  ∀ w : CmdWord,
    (decode w = .error .reservedOpcode ↔ (opField w).toNat = 0 ∨ 8 ≤ (opField w).toNat) ∧
    (decode w = .error .unusedImmediate ↔
      ((opField w).toNat = 1 ∧ (immField w).toNat ≠ 0) ∨ ((opField w).toNat = 2 ∧ 2 ≤ (immField w).toNat) ∨
      ((opField w).toNat = 3 ∧ 512 ≤ (immField w).toNat) ∨ ((opField w).toNat = 5 ∧ 256 ≤ (immField w).toNat) ∨
      ((opField w).toNat = 6 ∧ (immField w).toNat ≠ 0) ∨ ((opField w).toNat = 7 ∧ (immField w).toNat ≠ 0))

/-- The assembler turns well-formed commands into the words of their expansions, in the order written, refuses an operand
out of range, and never emits an illegal word (R80). -/
def Obligations.AssemblerEmitsLegalWords : Prop :=
  (∀ cs : List SourceCommand, (∀ c ∈ cs, c.wellFormed = true) → assemble cs = some ((cs.flatMap expand).map encode)) ∧
  (∀ cs : List SourceCommand, (∃ c ∈ cs, c.wellFormed = false) → assemble cs = none) ∧
  (∀ (cs : List SourceCommand) (ws : List CmdWord), assemble cs = some ws → ∀ w ∈ ws, ∃ i, decode w = .ok i)

/-- `PUSHS` pushes the `0` and `1` characters of its text, left to right, and skips every other; `PAD8` pushes eight 0
bits (R84). -/
def Obligations.PseudoInstructionsExpandToPush : Prop :=
  (∀ text : List Char, expand (.pushs text) =
    (text.filter fun c => c == '0' || c == '1').map fun c => .push (if c = '1' then 1 else 0)) ∧
  expand .pad8 = List.replicate 8 (.push 0)

/-! ### Commands (42_host_commands.md, 40 R111, 41 R140) -/

/-- `CLR` restores every host-written and status register, whatever `ERR` is, touches nothing else, and is the only
command that clears `ERR` (R161). -/
def Obligations.ClrRestoresDefaults : Prop :=
  encode .clr = 0x1000 ∧
  (∀ s : State, s.engine.phase = .idle → exec .clr s = .next { s with engine := { s.engine with
    data := 0, len := 0, poly := 0x107, maxerr := 0, expected := 0x00, crc := 0x00, crcv := false, err := 0 } }) ∧
  (∀ (i : Instr) (s t : State), exec i s = .next t → s.engine.err ≠ 0 → t.engine.err = 0 → i = .clr)

/-- `PUSH b`: nothing while `ERR != 0`; `LengthOverflow` and nothing else at `LEN = NMAX`; else every bit moves up one
position, `b` comes in at position 0 and `LEN` grows by one, and the truncation to `NMAX` bits removes nothing (R162,
R163). -/
def Obligations.PushAppendsBit : Prop :=
  ∀ (b : BitVec 1) (s : State), s.engine.phase = .idle →
    encode (.push b) = 0x2000 ||| b.setWidth 16 ∧
    (s.engine.err ≠ 0 → exec (.push b) s = .next s) ∧
    (s.engine.err = 0 → s.engine.len.toNat = Config.nmax →
      exec (.push b) s = .next { s with engine := { s.engine with err := 3 } }) ∧
    (s.engine.err = 0 → s.engine.len.toNat ≠ Config.nmax →
      exec (.push b) s = .next { s with engine := { s.engine with
        data := (s.engine.data <<< 1) ||| b.setWidth Config.nmax, len := s.engine.len + 1 } } ∧
      (Legal s.engine →
        ((s.engine.data <<< 1) ||| b.setWidth Config.nmax).toNat = 2 * s.engine.data.toNat + b.toNat ∧
        (s.engine.len + 1).toNat = s.engine.len.toNat + 1))

/-- The first bit pushed is the most significant, the last is position 0: after pushing `b_1 .. b_n` into a cleared engine,
`LEN = n` and `DATA = b_1*2^(n-1) + .. + b_n` (R52). -/
def Obligations.PushedBitsAreMostSignificantFirst : Prop :=
  ∀ (n : Nat) (g : Engine n) (bs : List (BitVec 1)), n ≤ 4095 → g.data = 0 → g.len = 0 → g.err = 0 → bs.length ≤ n →
    (bs.foldl (fun h b => pushBit b h) g).len.toNat = bs.length ∧
    (bs.foldl (fun h b => pushBit b h) g).data.toNat = bs.foldl (fun v b => 2 * v + b.toNat) 0 ∧
    (bs.foldl (fun h b => pushBit b h) g).err = 0

/-- `SETPOLY p` writes `POLY` and nothing else, whatever `ERR` is; it cannot act during an operation, and a polynomial of more
than 9 bits cannot be expressed (R164). -/
def Obligations.SetpolyWritesPoly : Prop :=
  (∀ (p : Poly) (s : State), encode (.setpoly p) = 0x3000 ||| p.setWidth 16 ∧
    (s.engine.phase = .idle → exec (.setpoly p) s = .next { s with engine := { s.engine with poly := p } }) ∧
    (s.engine.phase ≠ .idle → exec (.setpoly p) s = .next s)) ∧
  (∀ w : CmdWord, opField w = 0x3 → 512 ≤ (immField w).toNat → decode w = .error .unusedImmediate)

/-- `SETMAX m` writes `MAXERR` and nothing else, whatever `ERR` and `LEN` are, and every word with `op = 0x4` is legal
(R165). -/
def Obligations.SetmaxWritesMaxerr : Prop :=
  (∀ (m : Count) (s : State), s.engine.phase = .idle →
    encode (.setmax m) = 0x4000 ||| m.setWidth 16 ∧
    exec (.setmax m) s = .next { s with engine := { s.engine with maxerr := m } }) ∧
  (∀ w : CmdWord, opField w = 0x4 → decode w = .ok (.setmax (immField w)))

/-- `SETEXP x` writes `EXPECTED` and nothing else, whatever `ERR` is (R166). -/
def Obligations.SetexpWritesExpected : Prop :=
  ∀ (x : Checksum) (s : State), s.engine.phase = .idle →
    encode (.setexp x) = 0x5000 ||| x.setWidth 16 ∧
    exec (.setexp x) s = .next { s with engine := { s.engine with expected := x } }

/-- `CRC` at acceptance: `CRCV` is cleared in every case; while `ERR != 0` nothing more; `InvalidWidth` when `LEN < 8`; else
the division of `DATA` starts; it is accepted only in `IDLE` (R111). -/
def Obligations.CrcStartsDivision : Prop :=
  encode .crc = 0x6000 ∧ (∀ s : State, s.engine.phase ≠ .idle → exec .crc s = .next s) ∧
  ∀ s : State, s.engine.phase = .idle →
    (s.engine.err ≠ 0 → exec .crc s = .next { s with engine := { s.engine with crcv := false } }) ∧
    (s.engine.err = 0 → s.engine.len.toNat < 8 →
      exec .crc s = .next { s with engine := { s.engine with crcv := false, err := 1 } }) ∧
    (s.engine.err = 0 → 8 ≤ s.engine.len.toNat →
      exec .crc s = .next { s with engine := { s.engine with
        crcv := false, acc := s.engine.data, pos := s.engine.len - 1, phase := .cDiv } })

/-- `SOLVE` at acceptance: nothing while `ERR != 0`; `InvalidWidth` when `LEN < 8`; else the delta table is started;
it is accepted only in `IDLE` (R140). -/
def Obligations.SolveStartsDeltas : Prop :=
  encode .solve = 0x7000 ∧ (∀ s : State, s.engine.phase ≠ .idle → exec .solve s = .next s) ∧
  ∀ s : State, s.engine.phase = .idle →
    (s.engine.err ≠ 0 → exec .solve s = .next s) ∧
    (s.engine.err = 0 → s.engine.len.toNat < 8 →
      exec .solve s = .next { s with engine := { s.engine with err := 1 } }) ∧
    (s.engine.err = 0 → 8 ≤ s.engine.len.toNat →
      exec .solve s = .next { s with engine := { s.engine with lfsr := 0x01, di := 0, phase := .sDelta } })

/-- An accepted word that decodes to `Illegal` sets `ERR` to `IllegalCommand` if it was 0 and changes nothing else of the
engine (R168, R187). -/
def Obligations.IllegalWordRaisesIllegalCommand : Prop :=
  ∀ (s : State) (r : IllegalWord), accepts s = true → decode (currentInputs s).cmdWord = .error r →
    step s = .next { s with
      engine := { s.engine with err := if s.engine.err = 0 then 4 else s.engine.err }
      inputs := s.inputs.tail }

/-- `raise X` writes the cause's code if `ERR` is 0 and otherwise changes nothing: the first error wins (R183); the codes
are those of R181. -/
def Obligations.FirstErrorWins : Prop :=
  (∀ (n : Nat) (c : Cause) (g : Engine n),
    raise c g = { g with err := if g.err = 0 then causeCode c else g.err }) ∧
  causeCode .invalidWidth = 1 ∧ causeCode .invalidBound = 2 ∧ causeCode .lengthOverflow = 3 ∧
  causeCode .illegalCommand = 4

/-- While `ERR != 0`: `PUSH` and `SOLVE` do nothing, `CRC` clears `CRCV` and does nothing else, an illegal word changes
nothing, `SETPOLY`, `SETMAX`, `SETEXP` act and leave `ERR`, and `CLR` acts and clears it (R188). -/
def Obligations.ErrorGatesCommands : Prop :=
  ∀ s : State, s.engine.phase = .idle → s.engine.err ≠ 0 →
    (∀ b, exec (.push b) s = .next s) ∧ exec .solve s = .next s ∧
    exec .crc s = .next { s with engine := { s.engine with crcv := false } } ∧
    illegalCommand s = .next s ∧
    (∀ p, exec (.setpoly p) s = .next { s with engine := { s.engine with poly := p } }) ∧
    (∀ m, exec (.setmax m) s = .next { s with engine := { s.engine with maxerr := m } }) ∧
    (∀ x, exec (.setexp x) s = .next { s with engine := { s.engine with expected := x } }) ∧
    (∃ t, exec .clr s = .next t ∧ t.engine.err = 0 ∧ AtResetValues { t.engine with resv := false })

/-- What a command writes (R46, first column): each register only by the commands the table names, the result register, the
tables and `BASE`, `E`, `SYN`, `CAND` by none; what the world outside drives is left alone. -/
def Obligations.CommandsWriteOnlyTheirRegisters : Prop :=
  ∀ (i : Instr) (s t : State), exec i s = .next t →
    ((i ≠ .clr ∧ ∀ b, i ≠ .push b) → t.engine.data = s.engine.data ∧ t.engine.len = s.engine.len) ∧
    ((i ≠ .clr ∧ ∀ p, i ≠ .setpoly p) → t.engine.poly = s.engine.poly) ∧
    ((i ≠ .clr ∧ ∀ m, i ≠ .setmax m) → t.engine.maxerr = s.engine.maxerr) ∧
    ((i ≠ .clr ∧ ∀ x, i ≠ .setexp x) → t.engine.expected = s.engine.expected) ∧
    (i ≠ .clr → t.engine.crc = s.engine.crc) ∧
    (i ≠ .clr → i ≠ .crc → t.engine.crcv = s.engine.crcv) ∧
    (i ≠ .clr → i ≠ .crc → i ≠ .solve → (∀ b, i ≠ .push b) → t.engine.err = s.engine.err) ∧
    (i ≠ .clr → s.engine.err ≠ 0 → t.engine.err = s.engine.err) ∧
    (i ≠ .crc → i ≠ .solve → t.engine.phase = s.engine.phase) ∧
    (i ≠ .crc → t.engine.acc = s.engine.acc ∧ t.engine.pos = s.engine.pos) ∧
    (i ≠ .solve → t.engine.lfsr = s.engine.lfsr ∧ t.engine.di = s.engine.di) ∧
    t.engine.resv = s.engine.resv ∧ t.engine.resCw = s.engine.resCw ∧ t.engine.resCrc = s.engine.resCrc ∧
    t.engine.delta = s.engine.delta ∧ t.engine.base = s.engine.base ∧ t.engine.e = s.engine.e ∧
    t.engine.idx = s.engine.idx ∧ t.engine.syn = s.engine.syn ∧ t.engine.cand = s.engine.cand ∧
    t.inputs = s.inputs ∧ t.draws = s.draws

/-! ### Steps (00_scope.md R13, 42 R160 to R172, 70 R200 to R208) -/

/-- When the word on the command channel is accepted and decodes to `i`, the step is `exec i`, the levels of this step being
used up (R160). -/
def Obligations.StepRunsAcceptedCommand : Prop :=
  ∀ (s : State) (i : Instr), accepts s = true → decode (currentInputs s).cmdWord = .ok i →
    step s = exec i { s with inputs := s.inputs.tail }

/-- A word put where the next step reads its command is run by the next step, the engine being idle. -/
def Obligations.FetchWordRunsNext : Prop :=
  ∀ (s : State) (w : CmdWord) (i : Instr), decode w = .ok i →
    decodeTableWord 16 w.toNat = some i ∧
    step (s.withFetchWord 16 w.toNat) = exec i { s with engine := { s.engine with phase := .idle } }

/-- While the engine is busy a command is not accepted: `cmd_ready` is 0, the offer has no effect on the step, and `exec` of
any command leaves the machine as it is (R160). -/
def Obligations.BusyEngineAcceptsNoCommand : Prop :=
  (∀ s : State, (outputs s.engine).cmdReady = true ↔ s.engine.phase = .idle) ∧
  (∀ (s : State) (i : Instr), s.engine.phase ≠ .idle → exec i s = .next s) ∧
  (∀ (s : State) (p : Inputs) (ps : List Inputs), s.engine.phase ≠ .idle → s.inputs = p :: ps → wordChanged s = false →
    step s = step { s with inputs := { p with cmdValid := false } :: ps })

/-- A step in which `rst` is asserted is a reset step, whatever state the engine is in: every register with a reset value
holds it (R200); right after reset the machine holds the same values (R44). -/
def Obligations.ResetGivesResetValues : Prop :=
  AtResetValues State.reset.engine ∧
  ∀ s : State, resets s = true → ∃ t, step s = .next t ∧ AtResetValues t.engine ∧
    (outputs t.engine).cmdReady = true ∧ t.inputs = s.inputs.tail

/-- The machine right after reset meets the invariants of R42, and the working registers stand for what they should. -/
def Obligations.ResetStateIsLegal : Prop := Legal State.reset.engine ∧ Exact State.reset.engine

/-- The invariants of R42 are kept by every step. -/
def Obligations.StepKeepsLegal : Prop :=
  ∀ s t : State, Legal s.engine → step s = .next t → Legal t.engine

/-- From a state that meets the invariants every step answers a next state, as long as the host keeps to its duty of R172;
where it does not, the step refuses by name. No step faults. -/
def Obligations.LegalStepAnswersNext : Prop :=
  ∀ s : State, Legal s.engine →
    (hostKeepsWord s = true → ∃ t, step s = .next t) ∧
    (hostKeepsWord s = false → step s = .refused .commandWordChanged)

/-- Outside a reset, a step of a busy engine changes none of `DATA`, `LEN`, `POLY`, `MAXERR`, `EXPECTED`, and leaves `ERR`;
in a legal state `ERR` is 0 then (R42(vi)). -/
def Obligations.BusyEngineKeepsOperands : Prop :=
  ∀ s t : State, s.engine.phase ≠ .idle → resets s = false → step s = .next t →
    t.engine.data = s.engine.data ∧ t.engine.len = s.engine.len ∧ t.engine.poly = s.engine.poly ∧
    t.engine.maxerr = s.engine.maxerr ∧ t.engine.expected = s.engine.expected ∧ t.engine.err = s.engine.err ∧
    (Legal s.engine → s.engine.err = 0)

/-- The working registers keep standing for what they should (R123, R128, R145), step by step. -/
def Obligations.StepKeepsExact : Prop :=
  ∀ s t : State, Legal s.engine → Exact s.engine → step s = .next t → Exact t.engine

/-- `ERR` is sticky: once non-zero it keeps its value until `CLR` or reset (R28, R183). -/
def Obligations.ErrIsStickyUntilClrOrReset : Prop :=
  ∀ s t : State, s.engine.err ≠ 0 → step s = .next t →
    t.engine.err = s.engine.err ∨ (resets s = true ∧ t.engine.err = 0) ∨
    (accepts s = true ∧ decode (currentInputs s).cmdWord = .ok .clr ∧ t.engine.err = 0)

/-- `ERR` never holds a reserved code or code 2: only 0, 1, 3 and 4 are ever written (R181, R185). -/
def Obligations.ErrCodeStaysDefined : Prop :=
  ∀ s t : State, s.engine.err ∈ ([0, 1, 3, 4] : List ErrCode) → step s = .next t →
    t.engine.err ∈ ([0, 1, 3, 4] : List ErrCode)

/-- An idle engine to which nothing is offered waits: nothing of it changes (R195). -/
def Obligations.IdleEngineWaits : Prop :=
  ∀ s : State, s.engine.phase = .idle → resets s = false → (currentInputs s).cmdValid = false →
    step s = .next { s with inputs := s.inputs.tail }

/-- The result handshake (R146, R170). In `S_EMIT` the engine holds, the result steady, as long as the host neither accepts it nor
resets; the host accepts the pair as it stands in the step in which `res_valid` and `res_ready` are both 1, and then `RESV` is 0
and the search goes on; `res_ready` with `res_valid = 0` has no effect. -/
def Obligations.ResultIsHeldUntilAccepted : Prop :=
  (∀ s : State, s.engine.phase = .sEmit → resets s = false → (currentInputs s).resReady = false → wordChanged s = false →
    step s = .next { s with inputs := s.inputs.tail } ∧ accepted s = none) ∧
  (∀ s : State, s.engine.phase = .sEmit → s.engine.resv = true → resets s = false →
    (currentInputs s).resReady = true → wordChanged s = false →
    accepted s = some (s.engine.resCw, s.engine.resCrc) ∧
    step s = .next { s with engine := { s.engine with resv := false, phase := .sNext }, inputs := s.inputs.tail }) ∧
  (∀ (s : State) (p : Inputs) (ps : List Inputs), s.engine.resv = false → s.inputs = p :: ps →
    step s = step { s with inputs := { p with resReady := false } :: ps } ∧ accepted s = none)

/-- What a step of the engine's own writes (R46, second and third columns): each register only in the phases the table
names, the operands and `ERR` in none. -/
def Obligations.SequencerWritesOnlyItsRegisters : Prop :=
  ∀ (n : Nat) (r : Bool) (g h : Engine n), engineStep r g = .next h →
    h.data = g.data ∧ h.len = g.len ∧ h.poly = g.poly ∧ h.maxerr = g.maxerr ∧ h.expected = g.expected ∧ h.err = g.err ∧
    ((g.phase ≠ .cDiv ∨ g.pos ≠ 7) → h.crc = g.crc ∧ h.crcv = g.crcv) ∧
    ((g.phase ≠ .sVerify ∨ g.pos ≠ 7) → h.resCw = g.resCw ∧ h.resCrc = g.resCrc ∧ (g.phase ≠ .sEmit → h.resv = g.resv)) ∧
    (g.phase = .idle ∨ g.phase = .sEmit ∨ g.phase = .sNext → h.acc = g.acc ∧ h.pos = g.pos) ∧
    (g.phase ≠ .sDelta → h.lfsr = g.lfsr ∧ h.di = g.di ∧ h.delta = g.delta) ∧
    ((g.phase ≠ .sBase ∨ g.pos ≠ 7) → h.base = g.base ∧ (g.phase ≠ .sNext → h.e = g.e)) ∧
    (g.phase ≠ .sNext → h.idx = g.idx) ∧
    (g.phase ≠ .sEval → h.syn = g.syn ∧ h.cand = g.cand)

/-! ### The CRC evaluator (40_crc_evaluator.md) -/

/-- `crc8(v, n, P)` is the remainder of `v(x)` by `x^8 + P[7:0](x)` over GF(2), and does not depend on leading zero bits
(R107). -/
def Obligations.ChecksumIsPolynomialRemainder : Prop :=
  (∀ (n : Nat) (v : BitVec n) (P : Poly), 8 ≤ n →
    (∑ k ∈ Finset.range 8, if (crc8 v n P).getLsbD k then (Polynomial.X : Polynomial (ZMod 2)) ^ k else 0) =
      (∑ k ∈ Finset.range n, if v.getLsbD k then (Polynomial.X : Polynomial (ZMod 2)) ^ k else 0) %ₘ
        (Polynomial.X ^ 8 + ∑ k ∈ Finset.range 8, if P.getLsbD k then (Polynomial.X : Polynomial (ZMod 2)) ^ k else 0)) ∧
  (∀ (n n' : Nat) (v : BitVec n) (P : Poly), 8 ≤ n → n ≤ n' →
    crc8 (v.setWidth n') n' P = crc8 v n P ∧ crc8 (v.setWidth n') n P = crc8 v n P)

/-- The checksum is linear over GF(2), for every 9-bit polynomial (R106). -/
def Obligations.ChecksumIsLinear : Prop :=
  ∀ (n : Nat) (v u : BitVec n) (P : Poly), 8 ≤ n →
    crc8 (v ^^^ u) n P = crc8 v n P ^^^ crc8 u n P ∧ crc8 (0 : BitVec n) n P = 0

/-- Which polynomial bits matter (R105): bit 8 never affects the checksum; with bit 8 set every tested bit is cleared and
`Divide` is the checksum; with bit 8 clear a tested bit keeps its value; with `P[7:0] = 0` the checksum is `v[7:0]`. -/
def Obligations.TopPolynomialBitIsImmaterial : Prop :=
  ∀ (n : Nat) (v : BitVec n) (P : Poly), 8 ≤ n →
    crc8 v n P = crc8 v n (P ||| 0x100) ∧ crc8 v n P = crc8 v n (P &&& 0xFF) ∧
    (P.getLsbD 8 = true → (divide v n P).toNat < 2 ^ 8 ∧ divide v n P = (crc8 v n P).setWidth n) ∧
    (P.getLsbD 8 = false → ∀ (pos : Nat) (a : BitVec n), 8 ≤ pos → (divideBit P pos a).getLsbD pos = a.getLsbD pos) ∧
    (P &&& 0xFF = 0 → crc8 v n P = lowByte v)

/-- Zero input gives 0, and zero message bits give the trailing byte, whatever the polynomial (R108); an 8-bit sequence is
its own checksum (R104). -/
def Obligations.ZeroMessageGivesSuffix : Prop :=
  ∀ (n : Nat) (P : Poly), 8 ≤ n →
    crc8 (0 : BitVec n) n P = 0 ∧ (∀ v : BitVec n, v.toNat < 2 ^ 8 → crc8 v n P = lowByte v) ∧
    (∀ v : BitVec 8, crc8 v 8 P = v)

/-- Putting the checksum of a zero-padded sequence in its low 8 bits makes the checksum 0 (R109). -/
def Obligations.AppendedChecksumVerifies : Prop :=
  ∀ (n : Nat) (b : BitVec n) (P : Poly), 8 ≤ n → lowByte b = 0 → crc8 (b ||| (crc8 b n P).setWidth n) n P = 0

/-- The 8-bit shift-register form computes the same checksum as the `n`-bit scan (R114). -/
def Obligations.SerialFormAgrees : Prop :=
  ∀ (n : Nat) (v : BitVec n) (P : Poly), 8 ≤ n → serialCrc v n P = crc8 v n P

/-- In a dividing phase of a legal engine with `POS != 7` the micro-step is `DIVSTEP` (R110), and nothing else changes. -/
def Obligations.DividingPhaseTakesDivstep : Prop :=
  ∀ (n : Nat) (r : Bool) (g : Engine n), Legal g → (g.phase = .cDiv ∨ g.phase = .sBase ∨ g.phase = .sVerify) → g.pos ≠ 7 →
    engineStep r g = .next { g with
      acc := if g.acc.getLsbD g.pos.toNat then g.acc ^^^ (g.poly.setWidth n <<< (g.pos.toNat - 8)) else g.acc
      pos := g.pos - 1 }

/-- The last step of each dividing phase, `POS = 7`: `CRC` gets the low byte of `ACC` and the engine is idle (R112); or `BASE`
gets it and the search starts at the empty pattern (R143); or the candidate is emitted with it (R145). -/
def Obligations.DividingPhaseEnds : Prop :=
  ∀ (n : Nat) (r : Bool) (g : Engine n), g.pos = 7 →
    (g.phase = .cDiv → engineStep r g = .next { g with crc := g.acc.setWidth 8, crcv := true, phase := .idle }) ∧
    (g.phase = .sBase → engineStep r g = .next { g with base := g.acc.setWidth 8, e := 0, phase := .sEval }) ∧
    (g.phase = .sVerify → engineStep r g = .next { g with
      resCw := g.cand, resCrc := g.acc.setWidth 8, resv := true, phase := .sEmit })

/-- A `CRC` accepted with `ERR = 0` and `LEN >= 8` ends, after `LEN - 7` micro-steps, in `IDLE` with
`CRC = crc8(DATA, LEN, POLY)`, `CRCV = 1`, `ACC = Divide(DATA, LEN, POLY)`, `POS = 7`, everything else unchanged, and no result on
the result channel (R113), whatever the host drives meanwhile, short of a reset (R202) or of changing an offered word
(R172). -/
def Obligations.CrcCommandComputesChecksum : Prop :=
  ∀ s : State, Legal s.engine → s.engine.phase = .idle → s.engine.err = 0 → 8 ≤ s.engine.len.toNat →
    HostKeepsOff (s.engine.len.toNat - 7) s →
    ∃ t, exec .crc s = .next t ∧
      core.run (s.engine.len.toNat - 7) t = .next { s with
        engine := { s.engine with
          crc := crc8 s.engine.data s.engine.len.toNat s.engine.poly, crcv := true, phase := .idle
          acc := divide s.engine.data s.engine.len.toNat s.engine.poly, pos := 7 }
        inputs := s.inputs.drop (s.engine.len.toNat - 7) } ∧
      trace (s.engine.len.toNat - 7) t = []

/-! ### The bit-error solver (41_bit_error_solver.md) -/

/-- The two definitions of the checksum delta agree, whatever the length (R120, R121). -/
def Obligations.DeltaDefinitionsAgree : Prop :=
  ∀ (n i : Nat) (P : Poly), 8 ≤ n → i < n → delta n i P = deltaGen P i

/-- Values of the deltas (R122): positions below 8 give their own bit; position 8 gives `P[7:0]`; the sixteen values for
`0x107`; 0 from position 8 on when `P[7:0] = 0`. -/
def Obligations.DeltaValues : Prop :=
  (∀ (n i : Nat) (P : Poly), 8 ≤ n → i < 8 → delta n i P = BitVec.twoPow 8 i) ∧
  (∀ (n : Nat) (P : Poly), 9 ≤ n → delta n 8 P = lowByte P) ∧
  ((List.range 16).map fun i => delta 16 i 0x107) =
    [0x01, 0x02, 0x04, 0x08, 0x10, 0x20, 0x40, 0x80, 0x07, 0x0E, 0x1C, 0x38, 0x70, 0xE0, 0xC7, 0x89] ∧
  (∀ (n i : Nat) (P : Poly), lowByte P = 0 → 8 ≤ i → i < n → delta n i P = 0)

/-- `Comb(n, e)` is every ascending `e`-tuple over `[0, n)`, in lexicographic order; it has `C(n, e)` members, the first
`(0, .. e-1)`, the last `(n-e, .. n-1)`, and none for `e > n` (R126). -/
def Obligations.CombIsLexicographic : Prop :=
  ∀ n e : Nat,
    comb 4 2 = [[0, 1], [0, 2], [0, 3], [1, 2], [1, 3], [2, 3]] ∧
    (∀ t : List Nat, t ∈ comb n e ↔ t.length = e ∧ Pattern n t) ∧
    (comb n e).Pairwise (List.Lex (· < ·)) ∧
    (comb n e).length = n.choose e ∧ comb n 0 = [[]] ∧ (n < e → comb n e = []) ∧
    (e ≤ n → (comb n e).head? = some (List.range e) ∧ (comb n e).getLast? = some (List.range' (n - e) e))

/-- The successor step takes each tuple of a tier to the next one, and the last to none (R148). -/
def Obligations.SuccessorIsNextCombination : Prop :=
  ∀ (n e k : Nat) (t : List Nat), (comb n e)[k]? = some t → successor n t = (comb n e)[k + 1]?

/-- The evaluation of a pattern gives the checksum of the flipped codeword without dividing it (R127). -/
def Obligations.SynIsFlippedChecksum : Prop :=
  ∀ (n : Nat) (c : BitVec n) (P : Poly) (t : List Nat), 8 ≤ n → Pattern n t →
    syn n (crc8 c n P) t P = crc8 (flipBits c t) n P

/-- A bound above the length searches no more than the bound `n` (R132). -/
def Obligations.BoundAboveLengthIsLength : Prop :=
  ∀ (n m : Nat) (c : BitVec n) (P : Poly) (x : Checksum), n ≤ m → solve c n P m x = solve c n P n x

/-- `Solve` reports exactly the codewords within the bound whose checksum is the expected one, each once, each with that
checksum (R135). -/
def Obligations.SolveReportsExactlyTheMatches : Prop :=
  ∀ (n m : Nat) (c : BitVec n) (P : Poly) (x : Checksum), 8 ≤ n →
    (∀ r ∈ solve c n P m x, r.2 = x ∧ crc8 r.1 n P = x ∧ weight (r.1 ^^^ c) ≤ min m n) ∧
    (∀ c2 : BitVec n, crc8 c2 n P = x → weight (c2 ^^^ c) ≤ min m n →
      ((solve c n P m x).map Prod.fst).count c2 = 1)

/-- The laws of the source (R136 (a) to (c)): bound 0 gives the codeword itself if it matches and nothing else; raising the
bound by one keeps the results and adds the matches of the new tier; a flipped bit of a matching codeword is found in
tier 1. -/
def Obligations.SolveLaws : Prop :=
  ∀ (n : Nat) (c : BitVec n) (P : Poly) (x : Checksum), 8 ≤ n →
    (solve c n P 0 x = if crc8 c n P = x then [(c, x)] else []) ∧
    (∀ k, solve c n P (k + 1) x = solve c n P k x ++ tierResults c n P x (k + 1)) ∧
    (∀ i m, crc8 c n P = x → i < n → 1 ≤ m →
      (c, x) ∈ tierResults (c ^^^ BitVec.twoPow n i) n P x 1 ∧ (c, x) ∈ solve (c ^^^ BitVec.twoPow n i) n P m x)

/-- A micro-step of `S_DELTA` (R142): below `LEN` one entry is filled and the shift register moves on; at `LEN` the division
for the base checksum starts. -/
def Obligations.DeltaPhaseStep : Prop :=
  ∀ (n : Nat) (r : Bool) (g : Engine n), Legal g → g.phase = .sDelta →
    (g.di.toNat < g.len.toNat → ∃ v : Vector Checksum n,
      engineStep r g = .next { g with delta := v, lfsr := lfsrNext g.lfsr g.poly, di := g.di + 1 } ∧
      v[g.di.toNat]? = some g.lfsr ∧ ∀ i, i ≠ g.di.toNat → v[i]? = g.delta[i]?) ∧
    (g.len.toNat ≤ g.di.toNat →
      engineStep r g = .next { g with acc := g.data, pos := g.len - 1, phase := .sBase })

/-- A micro-step of `S_EVAL` (R144): `SYN` gets `BASE` exclusive-or the table entries of the pattern; on equality with
`EXPECTED` the candidate is `DATA` with the pattern's bits flipped and its division starts, else the next pattern is
taken. -/
def Obligations.EvalStepEvaluatesPattern : Prop :=
  ∀ (n : Nat) (r : Bool) (g : Engine n), Legal g → g.phase = .sEval →
    let s := ((patternOf g).map fun i => g.delta[i]?.getD 0).foldl (· ^^^ ·) g.base
    let c := g.data ^^^ ((patternOf g).map fun i => BitVec.twoPow n i).foldl (· ||| ·) 0
    (s = g.expected → engineStep r g = .next { g with
      syn := s, cand := c, acc := c, pos := g.len - 1, phase := .sVerify }) ∧
    (s ≠ g.expected → engineStep r g = .next { g with syn := s, phase := .sNext })

/-- A micro-step of `S_NEXT` (R147): the rightmost entry that can grow grows by 1 and every entry to its right follows it
consecutively; with none, the search ends at tier `MAXERR` or `LEN`, else the next tier starts at its first tuple. Entries of
`IDX` beyond the pattern are left alone. -/
def Obligations.NextStepAdvancesPattern : Prop :=
  ∀ (n : Nat) (r : Bool) (g : Engine n), Legal g → g.phase = .sNext →
    (∀ j x : Nat, (patternOf g)[j]? = some x → x + g.e.toNat < g.len.toNat + j →
      (∀ k y : Nat, j < k → (patternOf g)[k]? = some y → ¬ y + g.e.toNat < g.len.toNat + k) →
      ∃ v : Vector Count n, engineStep r g = .next { g with idx := v, phase := .sEval } ∧
        patternOf { g with idx := v } = (patternOf g).take j ++ List.range' (x + 1) (g.e.toNat - j) ∧
        ∀ k, g.e.toNat ≤ k → v[k]? = g.idx[k]?) ∧
    ((∀ k y : Nat, (patternOf g)[k]? = some y → ¬ y + g.e.toNat < g.len.toNat + k) →
      ((g.e = g.maxerr ∨ g.e = g.len) → engineStep r g = .next { g with phase := .idle }) ∧
      ((g.e ≠ g.maxerr ∧ g.e ≠ g.len) → ∃ v : Vector Count n,
        engineStep r g = .next { g with e := g.e + 1, idx := v, phase := .sEval } ∧
        patternOf { g with e := g.e + 1, idx := v } = List.range (g.e.toNat + 1) ∧
        ∀ k, g.e.toNat < k → v[k]? = g.idx[k]?))

/-- A held result is `DATA` with the bits of the current pattern flipped, within `LEN` bits, and its checksum, recomputed, is
`EXPECTED` (R29, R128, R135). -/
def Obligations.HeldResultIsAMatch : Prop :=
  ∀ (n : Nat) (g : Engine n), Legal g → Exact g → g.resv = true →
    g.resCw = flipBits g.data (patternOf g) ∧ g.resCw.toNat < 2 ^ g.len.toNat ∧
    g.resCrc = crc8 g.resCw g.len.toNat g.poly ∧ g.resCrc = g.expected ∧
    weight (g.resCw ^^^ g.data) = g.e.toNat ∧ g.e.toNat ≤ min g.maxerr.toNat g.len.toNat

/-- A `SOLVE` accepted with `ERR = 0` and `LEN >= 8` delivers exactly `Solve(DATA, LEN, POLY, MAXERR, EXPECTED)`, in order, and
returns to `IDLE` with the operands, `CRC`, `CRCV` and `ERR` unchanged (R150), whatever the host drives meanwhile, short of a
reset (R202) or of changing an offered word (R172). It ends after as many steps as R211 counts, one for each result accepted
and one for each step the host leaves a result waiting: so it ends for every host that accepts every result, however late.
Until then the engine is busy, and what the host has accepted is the beginning of that list; and once enough steps that are
no waiting have passed, that end has come. -/
def Obligations.SolveCommandDeliversSolve : Prop :=
  ∀ (s : State) (k : Nat), Legal s.engine → s.engine.phase = .idle → s.engine.err = 0 → 8 ≤ s.engine.len.toNat →
    HostKeepsOff k s →
    let n := s.engine.len.toNat
    let m := s.engine.maxerr.toNat
    let R := solve s.engine.data n s.engine.poly m s.engine.expected
    ∃ t, exec .solve s = .next t ∧
      (k < solveSteps n m R.length + waits k t →
        ∃ u : State, core.run k t = .next u ∧ u.engine.phase ≠ .idle ∧ trace k t <+: R) ∧
      (k = solveSteps n m R.length + waits k t →
        ∃ u : State, core.run k t = .next u ∧ trace k t = R ∧ SameRegisters u.engine s.engine ∧
          u.inputs = s.inputs.drop k) ∧
      (solveSteps n m R.length + waits k t ≤ k → ∃ j, j ≤ k ∧ j = solveSteps n m R.length + waits j t)

/-- What the working registers hold before an operation affects nothing the host sees: two idle engines with the same
registers of classes (a) and (b) show the same outputs and deliver the same results for ever, whatever the host does (R43,
R62). -/
def Obligations.WorkingRegistersAreInvisible : Prop :=
  ∀ s t : State, Legal s.engine → s.engine.phase = .idle → SameRegisters s.engine t.engine → s.inputs = t.inputs →
    ∀ (k : Nat) (s' : State), core.run k s = .next s' →
      ∃ t', core.run k t = .next t' ∧ visible s'.engine = visible t'.engine ∧ trace k s = trace k t
end

