-- ==== Sys2Proof/Laws/Config.lean ====
section
/-! SUPPORT. The range of the parameter `NMAX` (spec/00_scope.md R8): `8 <= NMAX <= 4095`. -/

namespace Sys2Proof.Laws

theorem nmax_ge : 8 ≤ Config.nmax := by unfold Config.nmax; omega

theorem nmax_le : Config.nmax ≤ 4095 := by
  have h := Config.nmaxSurplus.isLt
  unfold Config.nmax; omega

end Sys2Proof.Laws
end

