-- ==== Sys2Proof/Laws/State.lean ====
section
/-! SUPPORT. What each named update of the state leaves in each field: one lemma a field and update, so that no
proof unfolds a record update. -/

namespace Sys2Proof.Machine

/-- `State.reset` is a reset step's engine at draw 0. -/
theorem reset_engine : State.reset.engine = resetEngine Config.nmax 0 := rfl

@[simp] theorem reset_inputs : State.reset.inputs = [] := rfl

/-! ### `clearEngine` -/

@[simp] theorem clearEngine_data {n : Nat} (g : Engine n) : (clearEngine g).data = 0 := rfl
@[simp] theorem clearEngine_len {n : Nat} (g : Engine n) : (clearEngine g).len = 0 := rfl
@[simp] theorem clearEngine_poly {n : Nat} (g : Engine n) : (clearEngine g).poly = 0x107 := rfl
@[simp] theorem clearEngine_maxerr {n : Nat} (g : Engine n) : (clearEngine g).maxerr = 0 := rfl
@[simp] theorem clearEngine_expected {n : Nat} (g : Engine n) : (clearEngine g).expected = 0x00 := rfl
@[simp] theorem clearEngine_crc {n : Nat} (g : Engine n) : (clearEngine g).crc = 0x00 := rfl
@[simp] theorem clearEngine_crcv {n : Nat} (g : Engine n) : (clearEngine g).crcv = false := rfl
@[simp] theorem clearEngine_err {n : Nat} (g : Engine n) : (clearEngine g).err = 0 := rfl
@[simp] theorem clearEngine_resv {n : Nat} (g : Engine n) : (clearEngine g).resv = g.resv := rfl
@[simp] theorem clearEngine_resCw {n : Nat} (g : Engine n) : (clearEngine g).resCw = g.resCw := rfl
@[simp] theorem clearEngine_resCrc {n : Nat} (g : Engine n) : (clearEngine g).resCrc = g.resCrc := rfl
@[simp] theorem clearEngine_phase {n : Nat} (g : Engine n) : (clearEngine g).phase = g.phase := rfl
@[simp] theorem clearEngine_acc {n : Nat} (g : Engine n) : (clearEngine g).acc = g.acc := rfl
@[simp] theorem clearEngine_pos {n : Nat} (g : Engine n) : (clearEngine g).pos = g.pos := rfl
@[simp] theorem clearEngine_base {n : Nat} (g : Engine n) : (clearEngine g).base = g.base := rfl
@[simp] theorem clearEngine_lfsr {n : Nat} (g : Engine n) : (clearEngine g).lfsr = g.lfsr := rfl
@[simp] theorem clearEngine_di {n : Nat} (g : Engine n) : (clearEngine g).di = g.di := rfl
@[simp] theorem clearEngine_delta {n : Nat} (g : Engine n) : (clearEngine g).delta = g.delta := rfl
@[simp] theorem clearEngine_e {n : Nat} (g : Engine n) : (clearEngine g).e = g.e := rfl
@[simp] theorem clearEngine_idx {n : Nat} (g : Engine n) : (clearEngine g).idx = g.idx := rfl
@[simp] theorem clearEngine_syn {n : Nat} (g : Engine n) : (clearEngine g).syn = g.syn := rfl
@[simp] theorem clearEngine_cand {n : Nat} (g : Engine n) : (clearEngine g).cand = g.cand := rfl

/-! ### `loadDivision` -/

@[simp] theorem loadDivision_data {n : Nat} (v : BitVec n) (g : Engine n) : (loadDivision v g).data = g.data := rfl
@[simp] theorem loadDivision_len {n : Nat} (v : BitVec n) (g : Engine n) : (loadDivision v g).len = g.len := rfl
@[simp] theorem loadDivision_poly {n : Nat} (v : BitVec n) (g : Engine n) : (loadDivision v g).poly = g.poly := rfl
@[simp] theorem loadDivision_maxerr {n : Nat} (v : BitVec n) (g : Engine n) : (loadDivision v g).maxerr = g.maxerr := rfl
@[simp] theorem loadDivision_expected {n : Nat} (v : BitVec n) (g : Engine n) : (loadDivision v g).expected = g.expected := rfl
@[simp] theorem loadDivision_crc {n : Nat} (v : BitVec n) (g : Engine n) : (loadDivision v g).crc = g.crc := rfl
@[simp] theorem loadDivision_crcv {n : Nat} (v : BitVec n) (g : Engine n) : (loadDivision v g).crcv = g.crcv := rfl
@[simp] theorem loadDivision_err {n : Nat} (v : BitVec n) (g : Engine n) : (loadDivision v g).err = g.err := rfl
@[simp] theorem loadDivision_resv {n : Nat} (v : BitVec n) (g : Engine n) : (loadDivision v g).resv = g.resv := rfl
@[simp] theorem loadDivision_resCw {n : Nat} (v : BitVec n) (g : Engine n) : (loadDivision v g).resCw = g.resCw := rfl
@[simp] theorem loadDivision_resCrc {n : Nat} (v : BitVec n) (g : Engine n) : (loadDivision v g).resCrc = g.resCrc := rfl
@[simp] theorem loadDivision_phase {n : Nat} (v : BitVec n) (g : Engine n) : (loadDivision v g).phase = g.phase := rfl
@[simp] theorem loadDivision_acc {n : Nat} (v : BitVec n) (g : Engine n) : (loadDivision v g).acc = v := rfl
@[simp] theorem loadDivision_pos {n : Nat} (v : BitVec n) (g : Engine n) : (loadDivision v g).pos = g.len - 1 := rfl
@[simp] theorem loadDivision_base {n : Nat} (v : BitVec n) (g : Engine n) : (loadDivision v g).base = g.base := rfl
@[simp] theorem loadDivision_lfsr {n : Nat} (v : BitVec n) (g : Engine n) : (loadDivision v g).lfsr = g.lfsr := rfl
@[simp] theorem loadDivision_di {n : Nat} (v : BitVec n) (g : Engine n) : (loadDivision v g).di = g.di := rfl
@[simp] theorem loadDivision_delta {n : Nat} (v : BitVec n) (g : Engine n) : (loadDivision v g).delta = g.delta := rfl
@[simp] theorem loadDivision_e {n : Nat} (v : BitVec n) (g : Engine n) : (loadDivision v g).e = g.e := rfl
@[simp] theorem loadDivision_idx {n : Nat} (v : BitVec n) (g : Engine n) : (loadDivision v g).idx = g.idx := rfl
@[simp] theorem loadDivision_syn {n : Nat} (v : BitVec n) (g : Engine n) : (loadDivision v g).syn = g.syn := rfl
@[simp] theorem loadDivision_cand {n : Nat} (v : BitVec n) (g : Engine n) : (loadDivision v g).cand = g.cand := rfl

/-! ### `emit` -/

@[simp] theorem emit_data {n : Nat} (cw : BitVec n) (k : Checksum) (g : Engine n) : (emit cw k g).data = g.data := rfl
@[simp] theorem emit_len {n : Nat} (cw : BitVec n) (k : Checksum) (g : Engine n) : (emit cw k g).len = g.len := rfl
@[simp] theorem emit_poly {n : Nat} (cw : BitVec n) (k : Checksum) (g : Engine n) : (emit cw k g).poly = g.poly := rfl
@[simp] theorem emit_maxerr {n : Nat} (cw : BitVec n) (k : Checksum) (g : Engine n) : (emit cw k g).maxerr = g.maxerr := rfl
@[simp] theorem emit_expected {n : Nat} (cw : BitVec n) (k : Checksum) (g : Engine n) : (emit cw k g).expected = g.expected := rfl
@[simp] theorem emit_crc {n : Nat} (cw : BitVec n) (k : Checksum) (g : Engine n) : (emit cw k g).crc = g.crc := rfl
@[simp] theorem emit_crcv {n : Nat} (cw : BitVec n) (k : Checksum) (g : Engine n) : (emit cw k g).crcv = g.crcv := rfl
@[simp] theorem emit_err {n : Nat} (cw : BitVec n) (k : Checksum) (g : Engine n) : (emit cw k g).err = g.err := rfl
@[simp] theorem emit_resv {n : Nat} (cw : BitVec n) (k : Checksum) (g : Engine n) : (emit cw k g).resv = true := rfl
@[simp] theorem emit_resCw {n : Nat} (cw : BitVec n) (k : Checksum) (g : Engine n) : (emit cw k g).resCw = cw := rfl
@[simp] theorem emit_resCrc {n : Nat} (cw : BitVec n) (k : Checksum) (g : Engine n) : (emit cw k g).resCrc = k := rfl
@[simp] theorem emit_phase {n : Nat} (cw : BitVec n) (k : Checksum) (g : Engine n) : (emit cw k g).phase = g.phase := rfl
@[simp] theorem emit_acc {n : Nat} (cw : BitVec n) (k : Checksum) (g : Engine n) : (emit cw k g).acc = g.acc := rfl
@[simp] theorem emit_pos {n : Nat} (cw : BitVec n) (k : Checksum) (g : Engine n) : (emit cw k g).pos = g.pos := rfl
@[simp] theorem emit_base {n : Nat} (cw : BitVec n) (k : Checksum) (g : Engine n) : (emit cw k g).base = g.base := rfl
@[simp] theorem emit_lfsr {n : Nat} (cw : BitVec n) (k : Checksum) (g : Engine n) : (emit cw k g).lfsr = g.lfsr := rfl
@[simp] theorem emit_di {n : Nat} (cw : BitVec n) (k : Checksum) (g : Engine n) : (emit cw k g).di = g.di := rfl
@[simp] theorem emit_delta {n : Nat} (cw : BitVec n) (k : Checksum) (g : Engine n) : (emit cw k g).delta = g.delta := rfl
@[simp] theorem emit_e {n : Nat} (cw : BitVec n) (k : Checksum) (g : Engine n) : (emit cw k g).e = g.e := rfl
@[simp] theorem emit_idx {n : Nat} (cw : BitVec n) (k : Checksum) (g : Engine n) : (emit cw k g).idx = g.idx := rfl
@[simp] theorem emit_syn {n : Nat} (cw : BitVec n) (k : Checksum) (g : Engine n) : (emit cw k g).syn = g.syn := rfl
@[simp] theorem emit_cand {n : Nat} (cw : BitVec n) (k : Checksum) (g : Engine n) : (emit cw k g).cand = g.cand := rfl

/-! ### `releaseResult` -/

@[simp] theorem releaseResult_data {n : Nat} (g : Engine n) : (releaseResult g).data = g.data := rfl
@[simp] theorem releaseResult_len {n : Nat} (g : Engine n) : (releaseResult g).len = g.len := rfl
@[simp] theorem releaseResult_poly {n : Nat} (g : Engine n) : (releaseResult g).poly = g.poly := rfl
@[simp] theorem releaseResult_maxerr {n : Nat} (g : Engine n) : (releaseResult g).maxerr = g.maxerr := rfl
@[simp] theorem releaseResult_expected {n : Nat} (g : Engine n) : (releaseResult g).expected = g.expected := rfl
@[simp] theorem releaseResult_crc {n : Nat} (g : Engine n) : (releaseResult g).crc = g.crc := rfl
@[simp] theorem releaseResult_crcv {n : Nat} (g : Engine n) : (releaseResult g).crcv = g.crcv := rfl
@[simp] theorem releaseResult_err {n : Nat} (g : Engine n) : (releaseResult g).err = g.err := rfl
@[simp] theorem releaseResult_resv {n : Nat} (g : Engine n) : (releaseResult g).resv = false := rfl
@[simp] theorem releaseResult_resCw {n : Nat} (g : Engine n) : (releaseResult g).resCw = g.resCw := rfl
@[simp] theorem releaseResult_resCrc {n : Nat} (g : Engine n) : (releaseResult g).resCrc = g.resCrc := rfl
@[simp] theorem releaseResult_phase {n : Nat} (g : Engine n) : (releaseResult g).phase = .sNext := rfl
@[simp] theorem releaseResult_acc {n : Nat} (g : Engine n) : (releaseResult g).acc = g.acc := rfl
@[simp] theorem releaseResult_pos {n : Nat} (g : Engine n) : (releaseResult g).pos = g.pos := rfl
@[simp] theorem releaseResult_base {n : Nat} (g : Engine n) : (releaseResult g).base = g.base := rfl
@[simp] theorem releaseResult_lfsr {n : Nat} (g : Engine n) : (releaseResult g).lfsr = g.lfsr := rfl
@[simp] theorem releaseResult_di {n : Nat} (g : Engine n) : (releaseResult g).di = g.di := rfl
@[simp] theorem releaseResult_delta {n : Nat} (g : Engine n) : (releaseResult g).delta = g.delta := rfl
@[simp] theorem releaseResult_e {n : Nat} (g : Engine n) : (releaseResult g).e = g.e := rfl
@[simp] theorem releaseResult_idx {n : Nat} (g : Engine n) : (releaseResult g).idx = g.idx := rfl
@[simp] theorem releaseResult_syn {n : Nat} (g : Engine n) : (releaseResult g).syn = g.syn := rfl
@[simp] theorem releaseResult_cand {n : Nat} (g : Engine n) : (releaseResult g).cand = g.cand := rfl

/-! ### `setPoly` -/

@[simp] theorem setPoly_data {n : Nat} (p : Poly) (g : Engine n) : (setPoly p g).data = g.data := rfl
@[simp] theorem setPoly_len {n : Nat} (p : Poly) (g : Engine n) : (setPoly p g).len = g.len := rfl
@[simp] theorem setPoly_poly {n : Nat} (p : Poly) (g : Engine n) : (setPoly p g).poly = p := rfl
@[simp] theorem setPoly_maxerr {n : Nat} (p : Poly) (g : Engine n) : (setPoly p g).maxerr = g.maxerr := rfl
@[simp] theorem setPoly_expected {n : Nat} (p : Poly) (g : Engine n) : (setPoly p g).expected = g.expected := rfl
@[simp] theorem setPoly_crc {n : Nat} (p : Poly) (g : Engine n) : (setPoly p g).crc = g.crc := rfl
@[simp] theorem setPoly_crcv {n : Nat} (p : Poly) (g : Engine n) : (setPoly p g).crcv = g.crcv := rfl
@[simp] theorem setPoly_err {n : Nat} (p : Poly) (g : Engine n) : (setPoly p g).err = g.err := rfl
@[simp] theorem setPoly_resv {n : Nat} (p : Poly) (g : Engine n) : (setPoly p g).resv = g.resv := rfl
@[simp] theorem setPoly_resCw {n : Nat} (p : Poly) (g : Engine n) : (setPoly p g).resCw = g.resCw := rfl
@[simp] theorem setPoly_resCrc {n : Nat} (p : Poly) (g : Engine n) : (setPoly p g).resCrc = g.resCrc := rfl
@[simp] theorem setPoly_phase {n : Nat} (p : Poly) (g : Engine n) : (setPoly p g).phase = g.phase := rfl
@[simp] theorem setPoly_acc {n : Nat} (p : Poly) (g : Engine n) : (setPoly p g).acc = g.acc := rfl
@[simp] theorem setPoly_pos {n : Nat} (p : Poly) (g : Engine n) : (setPoly p g).pos = g.pos := rfl
@[simp] theorem setPoly_base {n : Nat} (p : Poly) (g : Engine n) : (setPoly p g).base = g.base := rfl
@[simp] theorem setPoly_lfsr {n : Nat} (p : Poly) (g : Engine n) : (setPoly p g).lfsr = g.lfsr := rfl
@[simp] theorem setPoly_di {n : Nat} (p : Poly) (g : Engine n) : (setPoly p g).di = g.di := rfl
@[simp] theorem setPoly_delta {n : Nat} (p : Poly) (g : Engine n) : (setPoly p g).delta = g.delta := rfl
@[simp] theorem setPoly_e {n : Nat} (p : Poly) (g : Engine n) : (setPoly p g).e = g.e := rfl
@[simp] theorem setPoly_idx {n : Nat} (p : Poly) (g : Engine n) : (setPoly p g).idx = g.idx := rfl
@[simp] theorem setPoly_syn {n : Nat} (p : Poly) (g : Engine n) : (setPoly p g).syn = g.syn := rfl
@[simp] theorem setPoly_cand {n : Nat} (p : Poly) (g : Engine n) : (setPoly p g).cand = g.cand := rfl

/-! ### `setMax` -/

@[simp] theorem setMax_data {n : Nat} (m : Count) (g : Engine n) : (setMax m g).data = g.data := rfl
@[simp] theorem setMax_len {n : Nat} (m : Count) (g : Engine n) : (setMax m g).len = g.len := rfl
@[simp] theorem setMax_poly {n : Nat} (m : Count) (g : Engine n) : (setMax m g).poly = g.poly := rfl
@[simp] theorem setMax_maxerr {n : Nat} (m : Count) (g : Engine n) : (setMax m g).maxerr = m := rfl
@[simp] theorem setMax_expected {n : Nat} (m : Count) (g : Engine n) : (setMax m g).expected = g.expected := rfl
@[simp] theorem setMax_crc {n : Nat} (m : Count) (g : Engine n) : (setMax m g).crc = g.crc := rfl
@[simp] theorem setMax_crcv {n : Nat} (m : Count) (g : Engine n) : (setMax m g).crcv = g.crcv := rfl
@[simp] theorem setMax_err {n : Nat} (m : Count) (g : Engine n) : (setMax m g).err = g.err := rfl
@[simp] theorem setMax_resv {n : Nat} (m : Count) (g : Engine n) : (setMax m g).resv = g.resv := rfl
@[simp] theorem setMax_resCw {n : Nat} (m : Count) (g : Engine n) : (setMax m g).resCw = g.resCw := rfl
@[simp] theorem setMax_resCrc {n : Nat} (m : Count) (g : Engine n) : (setMax m g).resCrc = g.resCrc := rfl
@[simp] theorem setMax_phase {n : Nat} (m : Count) (g : Engine n) : (setMax m g).phase = g.phase := rfl
@[simp] theorem setMax_acc {n : Nat} (m : Count) (g : Engine n) : (setMax m g).acc = g.acc := rfl
@[simp] theorem setMax_pos {n : Nat} (m : Count) (g : Engine n) : (setMax m g).pos = g.pos := rfl
@[simp] theorem setMax_base {n : Nat} (m : Count) (g : Engine n) : (setMax m g).base = g.base := rfl
@[simp] theorem setMax_lfsr {n : Nat} (m : Count) (g : Engine n) : (setMax m g).lfsr = g.lfsr := rfl
@[simp] theorem setMax_di {n : Nat} (m : Count) (g : Engine n) : (setMax m g).di = g.di := rfl
@[simp] theorem setMax_delta {n : Nat} (m : Count) (g : Engine n) : (setMax m g).delta = g.delta := rfl
@[simp] theorem setMax_e {n : Nat} (m : Count) (g : Engine n) : (setMax m g).e = g.e := rfl
@[simp] theorem setMax_idx {n : Nat} (m : Count) (g : Engine n) : (setMax m g).idx = g.idx := rfl
@[simp] theorem setMax_syn {n : Nat} (m : Count) (g : Engine n) : (setMax m g).syn = g.syn := rfl
@[simp] theorem setMax_cand {n : Nat} (m : Count) (g : Engine n) : (setMax m g).cand = g.cand := rfl

/-! ### `setExp` -/

@[simp] theorem setExp_data {n : Nat} (x : Checksum) (g : Engine n) : (setExp x g).data = g.data := rfl
@[simp] theorem setExp_len {n : Nat} (x : Checksum) (g : Engine n) : (setExp x g).len = g.len := rfl
@[simp] theorem setExp_poly {n : Nat} (x : Checksum) (g : Engine n) : (setExp x g).poly = g.poly := rfl
@[simp] theorem setExp_maxerr {n : Nat} (x : Checksum) (g : Engine n) : (setExp x g).maxerr = g.maxerr := rfl
@[simp] theorem setExp_expected {n : Nat} (x : Checksum) (g : Engine n) : (setExp x g).expected = x := rfl
@[simp] theorem setExp_crc {n : Nat} (x : Checksum) (g : Engine n) : (setExp x g).crc = g.crc := rfl
@[simp] theorem setExp_crcv {n : Nat} (x : Checksum) (g : Engine n) : (setExp x g).crcv = g.crcv := rfl
@[simp] theorem setExp_err {n : Nat} (x : Checksum) (g : Engine n) : (setExp x g).err = g.err := rfl
@[simp] theorem setExp_resv {n : Nat} (x : Checksum) (g : Engine n) : (setExp x g).resv = g.resv := rfl
@[simp] theorem setExp_resCw {n : Nat} (x : Checksum) (g : Engine n) : (setExp x g).resCw = g.resCw := rfl
@[simp] theorem setExp_resCrc {n : Nat} (x : Checksum) (g : Engine n) : (setExp x g).resCrc = g.resCrc := rfl
@[simp] theorem setExp_phase {n : Nat} (x : Checksum) (g : Engine n) : (setExp x g).phase = g.phase := rfl
@[simp] theorem setExp_acc {n : Nat} (x : Checksum) (g : Engine n) : (setExp x g).acc = g.acc := rfl
@[simp] theorem setExp_pos {n : Nat} (x : Checksum) (g : Engine n) : (setExp x g).pos = g.pos := rfl
@[simp] theorem setExp_base {n : Nat} (x : Checksum) (g : Engine n) : (setExp x g).base = g.base := rfl
@[simp] theorem setExp_lfsr {n : Nat} (x : Checksum) (g : Engine n) : (setExp x g).lfsr = g.lfsr := rfl
@[simp] theorem setExp_di {n : Nat} (x : Checksum) (g : Engine n) : (setExp x g).di = g.di := rfl
@[simp] theorem setExp_delta {n : Nat} (x : Checksum) (g : Engine n) : (setExp x g).delta = g.delta := rfl
@[simp] theorem setExp_e {n : Nat} (x : Checksum) (g : Engine n) : (setExp x g).e = g.e := rfl
@[simp] theorem setExp_idx {n : Nat} (x : Checksum) (g : Engine n) : (setExp x g).idx = g.idx := rfl
@[simp] theorem setExp_syn {n : Nat} (x : Checksum) (g : Engine n) : (setExp x g).syn = g.syn := rfl
@[simp] theorem setExp_cand {n : Nat} (x : Checksum) (g : Engine n) : (setExp x g).cand = g.cand := rfl

/-! ### `resetEngine` -/

@[simp] theorem resetEngine_data (n d : Nat) : (resetEngine n d).data = 0 := rfl
@[simp] theorem resetEngine_len (n d : Nat) : (resetEngine n d).len = 0 := rfl
@[simp] theorem resetEngine_poly (n d : Nat) : (resetEngine n d).poly = 0x107 := rfl
@[simp] theorem resetEngine_maxerr (n d : Nat) : (resetEngine n d).maxerr = 0 := rfl
@[simp] theorem resetEngine_expected (n d : Nat) : (resetEngine n d).expected = 0x00 := rfl
@[simp] theorem resetEngine_crc (n d : Nat) : (resetEngine n d).crc = 0x00 := rfl
@[simp] theorem resetEngine_crcv (n d : Nat) : (resetEngine n d).crcv = false := rfl
@[simp] theorem resetEngine_err (n d : Nat) : (resetEngine n d).err = 0 := rfl
@[simp] theorem resetEngine_resv (n d : Nat) : (resetEngine n d).resv = false := rfl
@[simp] theorem resetEngine_resCw (n d : Nat) : (resetEngine n d).resCw = Config.unspecified n .resCw d := rfl
@[simp] theorem resetEngine_resCrc (n d : Nat) : (resetEngine n d).resCrc = Config.unspecified 8 .resCrc d := rfl
@[simp] theorem resetEngine_phase (n d : Nat) : (resetEngine n d).phase = .idle := rfl
@[simp] theorem resetEngine_acc (n d : Nat) : (resetEngine n d).acc = Config.unspecified n .acc d := rfl
@[simp] theorem resetEngine_pos (n d : Nat) : (resetEngine n d).pos = Config.unspecified 12 .pos d := rfl
@[simp] theorem resetEngine_base (n d : Nat) : (resetEngine n d).base = Config.unspecified 8 .base d := rfl
@[simp] theorem resetEngine_lfsr (n d : Nat) : (resetEngine n d).lfsr = Config.unspecified 8 .lfsr d := rfl
@[simp] theorem resetEngine_di (n d : Nat) : (resetEngine n d).di = Config.unspecified 12 .di d := rfl
@[simp] theorem resetEngine_delta (n d : Nat) : (resetEngine n d).delta = Vector.ofFn fun i => Config.unspecified 8 (.delta i.val) d := rfl
@[simp] theorem resetEngine_e (n d : Nat) : (resetEngine n d).e = Config.unspecified 12 .e d := rfl
@[simp] theorem resetEngine_idx (n d : Nat) : (resetEngine n d).idx = Vector.ofFn fun j => Config.unspecified 12 (.idx j.val) d := rfl
@[simp] theorem resetEngine_syn (n d : Nat) : (resetEngine n d).syn = Config.unspecified 8 .syn d := rfl
@[simp] theorem resetEngine_cand (n d : Nat) : (resetEngine n d).cand = Config.unspecified n .cand d := rfl

/-! ### `raise`: the registers it never writes -/

@[simp] theorem raise_data {n : Nat} (c : Cause) (g : Engine n) : (raise c g).data = g.data := by
  unfold raise; (repeat' split) <;> rfl
@[simp] theorem raise_len {n : Nat} (c : Cause) (g : Engine n) : (raise c g).len = g.len := by
  unfold raise; (repeat' split) <;> rfl
@[simp] theorem raise_poly {n : Nat} (c : Cause) (g : Engine n) : (raise c g).poly = g.poly := by
  unfold raise; (repeat' split) <;> rfl
@[simp] theorem raise_maxerr {n : Nat} (c : Cause) (g : Engine n) : (raise c g).maxerr = g.maxerr := by
  unfold raise; (repeat' split) <;> rfl
@[simp] theorem raise_expected {n : Nat} (c : Cause) (g : Engine n) : (raise c g).expected = g.expected := by
  unfold raise; (repeat' split) <;> rfl
@[simp] theorem raise_crc {n : Nat} (c : Cause) (g : Engine n) : (raise c g).crc = g.crc := by
  unfold raise; (repeat' split) <;> rfl
@[simp] theorem raise_crcv {n : Nat} (c : Cause) (g : Engine n) : (raise c g).crcv = g.crcv := by
  unfold raise; (repeat' split) <;> rfl
@[simp] theorem raise_resv {n : Nat} (c : Cause) (g : Engine n) : (raise c g).resv = g.resv := by
  unfold raise; (repeat' split) <;> rfl
@[simp] theorem raise_resCw {n : Nat} (c : Cause) (g : Engine n) : (raise c g).resCw = g.resCw := by
  unfold raise; (repeat' split) <;> rfl
@[simp] theorem raise_resCrc {n : Nat} (c : Cause) (g : Engine n) : (raise c g).resCrc = g.resCrc := by
  unfold raise; (repeat' split) <;> rfl
@[simp] theorem raise_phase {n : Nat} (c : Cause) (g : Engine n) : (raise c g).phase = g.phase := by
  unfold raise; (repeat' split) <;> rfl
@[simp] theorem raise_acc {n : Nat} (c : Cause) (g : Engine n) : (raise c g).acc = g.acc := by
  unfold raise; (repeat' split) <;> rfl
@[simp] theorem raise_pos {n : Nat} (c : Cause) (g : Engine n) : (raise c g).pos = g.pos := by
  unfold raise; (repeat' split) <;> rfl
@[simp] theorem raise_base {n : Nat} (c : Cause) (g : Engine n) : (raise c g).base = g.base := by
  unfold raise; (repeat' split) <;> rfl
@[simp] theorem raise_lfsr {n : Nat} (c : Cause) (g : Engine n) : (raise c g).lfsr = g.lfsr := by
  unfold raise; (repeat' split) <;> rfl
@[simp] theorem raise_di {n : Nat} (c : Cause) (g : Engine n) : (raise c g).di = g.di := by
  unfold raise; (repeat' split) <;> rfl
@[simp] theorem raise_delta {n : Nat} (c : Cause) (g : Engine n) : (raise c g).delta = g.delta := by
  unfold raise; (repeat' split) <;> rfl
@[simp] theorem raise_e {n : Nat} (c : Cause) (g : Engine n) : (raise c g).e = g.e := by
  unfold raise; (repeat' split) <;> rfl
@[simp] theorem raise_idx {n : Nat} (c : Cause) (g : Engine n) : (raise c g).idx = g.idx := by
  unfold raise; (repeat' split) <;> rfl
@[simp] theorem raise_syn {n : Nat} (c : Cause) (g : Engine n) : (raise c g).syn = g.syn := by
  unfold raise; (repeat' split) <;> rfl
@[simp] theorem raise_cand {n : Nat} (c : Cause) (g : Engine n) : (raise c g).cand = g.cand := by
  unfold raise; (repeat' split) <;> rfl

/-! ### `pushBit`: the registers it never writes -/

@[simp] theorem pushBit_poly {n : Nat} (b : BitVec 1) (g : Engine n) : (pushBit b g).poly = g.poly := by
  unfold pushBit; (repeat' split) <;> first | rfl | simp
@[simp] theorem pushBit_maxerr {n : Nat} (b : BitVec 1) (g : Engine n) : (pushBit b g).maxerr = g.maxerr := by
  unfold pushBit; (repeat' split) <;> first | rfl | simp
@[simp] theorem pushBit_expected {n : Nat} (b : BitVec 1) (g : Engine n) : (pushBit b g).expected = g.expected := by
  unfold pushBit; (repeat' split) <;> first | rfl | simp
@[simp] theorem pushBit_crc {n : Nat} (b : BitVec 1) (g : Engine n) : (pushBit b g).crc = g.crc := by
  unfold pushBit; (repeat' split) <;> first | rfl | simp
@[simp] theorem pushBit_crcv {n : Nat} (b : BitVec 1) (g : Engine n) : (pushBit b g).crcv = g.crcv := by
  unfold pushBit; (repeat' split) <;> first | rfl | simp
@[simp] theorem pushBit_resv {n : Nat} (b : BitVec 1) (g : Engine n) : (pushBit b g).resv = g.resv := by
  unfold pushBit; (repeat' split) <;> first | rfl | simp
@[simp] theorem pushBit_resCw {n : Nat} (b : BitVec 1) (g : Engine n) : (pushBit b g).resCw = g.resCw := by
  unfold pushBit; (repeat' split) <;> first | rfl | simp
@[simp] theorem pushBit_resCrc {n : Nat} (b : BitVec 1) (g : Engine n) : (pushBit b g).resCrc = g.resCrc := by
  unfold pushBit; (repeat' split) <;> first | rfl | simp
@[simp] theorem pushBit_phase {n : Nat} (b : BitVec 1) (g : Engine n) : (pushBit b g).phase = g.phase := by
  unfold pushBit; (repeat' split) <;> first | rfl | simp
@[simp] theorem pushBit_acc {n : Nat} (b : BitVec 1) (g : Engine n) : (pushBit b g).acc = g.acc := by
  unfold pushBit; (repeat' split) <;> first | rfl | simp
@[simp] theorem pushBit_pos {n : Nat} (b : BitVec 1) (g : Engine n) : (pushBit b g).pos = g.pos := by
  unfold pushBit; (repeat' split) <;> first | rfl | simp
@[simp] theorem pushBit_base {n : Nat} (b : BitVec 1) (g : Engine n) : (pushBit b g).base = g.base := by
  unfold pushBit; (repeat' split) <;> first | rfl | simp
@[simp] theorem pushBit_lfsr {n : Nat} (b : BitVec 1) (g : Engine n) : (pushBit b g).lfsr = g.lfsr := by
  unfold pushBit; (repeat' split) <;> first | rfl | simp
@[simp] theorem pushBit_di {n : Nat} (b : BitVec 1) (g : Engine n) : (pushBit b g).di = g.di := by
  unfold pushBit; (repeat' split) <;> first | rfl | simp
@[simp] theorem pushBit_delta {n : Nat} (b : BitVec 1) (g : Engine n) : (pushBit b g).delta = g.delta := by
  unfold pushBit; (repeat' split) <;> first | rfl | simp
@[simp] theorem pushBit_e {n : Nat} (b : BitVec 1) (g : Engine n) : (pushBit b g).e = g.e := by
  unfold pushBit; (repeat' split) <;> first | rfl | simp
@[simp] theorem pushBit_idx {n : Nat} (b : BitVec 1) (g : Engine n) : (pushBit b g).idx = g.idx := by
  unfold pushBit; (repeat' split) <;> first | rfl | simp
@[simp] theorem pushBit_syn {n : Nat} (b : BitVec 1) (g : Engine n) : (pushBit b g).syn = g.syn := by
  unfold pushBit; (repeat' split) <;> first | rfl | simp
@[simp] theorem pushBit_cand {n : Nat} (b : BitVec 1) (g : Engine n) : (pushBit b g).cand = g.cand := by
  unfold pushBit; (repeat' split) <;> first | rfl | simp

/-! ### `startCrc`: the registers it never writes -/

@[simp] theorem startCrc_data {n : Nat} (g : Engine n) : (startCrc g).data = g.data := by
  unfold startCrc; (repeat' split) <;> first | rfl | simp
@[simp] theorem startCrc_len {n : Nat} (g : Engine n) : (startCrc g).len = g.len := by
  unfold startCrc; (repeat' split) <;> first | rfl | simp
@[simp] theorem startCrc_poly {n : Nat} (g : Engine n) : (startCrc g).poly = g.poly := by
  unfold startCrc; (repeat' split) <;> first | rfl | simp
@[simp] theorem startCrc_maxerr {n : Nat} (g : Engine n) : (startCrc g).maxerr = g.maxerr := by
  unfold startCrc; (repeat' split) <;> first | rfl | simp
@[simp] theorem startCrc_expected {n : Nat} (g : Engine n) : (startCrc g).expected = g.expected := by
  unfold startCrc; (repeat' split) <;> first | rfl | simp
@[simp] theorem startCrc_crc {n : Nat} (g : Engine n) : (startCrc g).crc = g.crc := by
  unfold startCrc; (repeat' split) <;> first | rfl | simp
@[simp] theorem startCrc_resv {n : Nat} (g : Engine n) : (startCrc g).resv = g.resv := by
  unfold startCrc; (repeat' split) <;> first | rfl | simp
@[simp] theorem startCrc_resCw {n : Nat} (g : Engine n) : (startCrc g).resCw = g.resCw := by
  unfold startCrc; (repeat' split) <;> first | rfl | simp
@[simp] theorem startCrc_resCrc {n : Nat} (g : Engine n) : (startCrc g).resCrc = g.resCrc := by
  unfold startCrc; (repeat' split) <;> first | rfl | simp
@[simp] theorem startCrc_base {n : Nat} (g : Engine n) : (startCrc g).base = g.base := by
  unfold startCrc; (repeat' split) <;> first | rfl | simp
@[simp] theorem startCrc_lfsr {n : Nat} (g : Engine n) : (startCrc g).lfsr = g.lfsr := by
  unfold startCrc; (repeat' split) <;> first | rfl | simp
@[simp] theorem startCrc_di {n : Nat} (g : Engine n) : (startCrc g).di = g.di := by
  unfold startCrc; (repeat' split) <;> first | rfl | simp
@[simp] theorem startCrc_delta {n : Nat} (g : Engine n) : (startCrc g).delta = g.delta := by
  unfold startCrc; (repeat' split) <;> first | rfl | simp
@[simp] theorem startCrc_e {n : Nat} (g : Engine n) : (startCrc g).e = g.e := by
  unfold startCrc; (repeat' split) <;> first | rfl | simp
@[simp] theorem startCrc_idx {n : Nat} (g : Engine n) : (startCrc g).idx = g.idx := by
  unfold startCrc; (repeat' split) <;> first | rfl | simp
@[simp] theorem startCrc_syn {n : Nat} (g : Engine n) : (startCrc g).syn = g.syn := by
  unfold startCrc; (repeat' split) <;> first | rfl | simp
@[simp] theorem startCrc_cand {n : Nat} (g : Engine n) : (startCrc g).cand = g.cand := by
  unfold startCrc; (repeat' split) <;> first | rfl | simp

/-! ### `startSolve`: the registers it never writes -/

@[simp] theorem startSolve_data {n : Nat} (g : Engine n) : (startSolve g).data = g.data := by
  unfold startSolve; (repeat' split) <;> first | rfl | simp
@[simp] theorem startSolve_len {n : Nat} (g : Engine n) : (startSolve g).len = g.len := by
  unfold startSolve; (repeat' split) <;> first | rfl | simp
@[simp] theorem startSolve_poly {n : Nat} (g : Engine n) : (startSolve g).poly = g.poly := by
  unfold startSolve; (repeat' split) <;> first | rfl | simp
@[simp] theorem startSolve_maxerr {n : Nat} (g : Engine n) : (startSolve g).maxerr = g.maxerr := by
  unfold startSolve; (repeat' split) <;> first | rfl | simp
@[simp] theorem startSolve_expected {n : Nat} (g : Engine n) : (startSolve g).expected = g.expected := by
  unfold startSolve; (repeat' split) <;> first | rfl | simp
@[simp] theorem startSolve_crc {n : Nat} (g : Engine n) : (startSolve g).crc = g.crc := by
  unfold startSolve; (repeat' split) <;> first | rfl | simp
@[simp] theorem startSolve_crcv {n : Nat} (g : Engine n) : (startSolve g).crcv = g.crcv := by
  unfold startSolve; (repeat' split) <;> first | rfl | simp
@[simp] theorem startSolve_resv {n : Nat} (g : Engine n) : (startSolve g).resv = g.resv := by
  unfold startSolve; (repeat' split) <;> first | rfl | simp
@[simp] theorem startSolve_resCw {n : Nat} (g : Engine n) : (startSolve g).resCw = g.resCw := by
  unfold startSolve; (repeat' split) <;> first | rfl | simp
@[simp] theorem startSolve_resCrc {n : Nat} (g : Engine n) : (startSolve g).resCrc = g.resCrc := by
  unfold startSolve; (repeat' split) <;> first | rfl | simp
@[simp] theorem startSolve_acc {n : Nat} (g : Engine n) : (startSolve g).acc = g.acc := by
  unfold startSolve; (repeat' split) <;> first | rfl | simp
@[simp] theorem startSolve_pos {n : Nat} (g : Engine n) : (startSolve g).pos = g.pos := by
  unfold startSolve; (repeat' split) <;> first | rfl | simp
@[simp] theorem startSolve_base {n : Nat} (g : Engine n) : (startSolve g).base = g.base := by
  unfold startSolve; (repeat' split) <;> first | rfl | simp
@[simp] theorem startSolve_delta {n : Nat} (g : Engine n) : (startSolve g).delta = g.delta := by
  unfold startSolve; (repeat' split) <;> first | rfl | simp
@[simp] theorem startSolve_e {n : Nat} (g : Engine n) : (startSolve g).e = g.e := by
  unfold startSolve; (repeat' split) <;> first | rfl | simp
@[simp] theorem startSolve_idx {n : Nat} (g : Engine n) : (startSolve g).idx = g.idx := by
  unfold startSolve; (repeat' split) <;> first | rfl | simp
@[simp] theorem startSolve_syn {n : Nat} (g : Engine n) : (startSolve g).syn = g.syn := by
  unfold startSolve; (repeat' split) <;> first | rfl | simp
@[simp] theorem startSolve_cand {n : Nat} (g : Engine n) : (startSolve g).cand = g.cand := by
  unfold startSolve; (repeat' split) <;> first | rfl | simp

/-! ### `sEmitStep`: the registers it never writes -/

@[simp] theorem sEmitStep_data {n : Nat} (r : Bool) (g : Engine n) : (sEmitStep r g).data = g.data := by
  unfold sEmitStep; (repeat' split) <;> rfl
@[simp] theorem sEmitStep_len {n : Nat} (r : Bool) (g : Engine n) : (sEmitStep r g).len = g.len := by
  unfold sEmitStep; (repeat' split) <;> rfl
@[simp] theorem sEmitStep_poly {n : Nat} (r : Bool) (g : Engine n) : (sEmitStep r g).poly = g.poly := by
  unfold sEmitStep; (repeat' split) <;> rfl
@[simp] theorem sEmitStep_maxerr {n : Nat} (r : Bool) (g : Engine n) : (sEmitStep r g).maxerr = g.maxerr := by
  unfold sEmitStep; (repeat' split) <;> rfl
@[simp] theorem sEmitStep_expected {n : Nat} (r : Bool) (g : Engine n) : (sEmitStep r g).expected = g.expected := by
  unfold sEmitStep; (repeat' split) <;> rfl
@[simp] theorem sEmitStep_crc {n : Nat} (r : Bool) (g : Engine n) : (sEmitStep r g).crc = g.crc := by
  unfold sEmitStep; (repeat' split) <;> rfl
@[simp] theorem sEmitStep_crcv {n : Nat} (r : Bool) (g : Engine n) : (sEmitStep r g).crcv = g.crcv := by
  unfold sEmitStep; (repeat' split) <;> rfl
@[simp] theorem sEmitStep_err {n : Nat} (r : Bool) (g : Engine n) : (sEmitStep r g).err = g.err := by
  unfold sEmitStep; (repeat' split) <;> rfl
@[simp] theorem sEmitStep_resCw {n : Nat} (r : Bool) (g : Engine n) : (sEmitStep r g).resCw = g.resCw := by
  unfold sEmitStep; (repeat' split) <;> rfl
@[simp] theorem sEmitStep_resCrc {n : Nat} (r : Bool) (g : Engine n) : (sEmitStep r g).resCrc = g.resCrc := by
  unfold sEmitStep; (repeat' split) <;> rfl
@[simp] theorem sEmitStep_acc {n : Nat} (r : Bool) (g : Engine n) : (sEmitStep r g).acc = g.acc := by
  unfold sEmitStep; (repeat' split) <;> rfl
@[simp] theorem sEmitStep_pos {n : Nat} (r : Bool) (g : Engine n) : (sEmitStep r g).pos = g.pos := by
  unfold sEmitStep; (repeat' split) <;> rfl
@[simp] theorem sEmitStep_base {n : Nat} (r : Bool) (g : Engine n) : (sEmitStep r g).base = g.base := by
  unfold sEmitStep; (repeat' split) <;> rfl
@[simp] theorem sEmitStep_lfsr {n : Nat} (r : Bool) (g : Engine n) : (sEmitStep r g).lfsr = g.lfsr := by
  unfold sEmitStep; (repeat' split) <;> rfl
@[simp] theorem sEmitStep_di {n : Nat} (r : Bool) (g : Engine n) : (sEmitStep r g).di = g.di := by
  unfold sEmitStep; (repeat' split) <;> rfl
@[simp] theorem sEmitStep_delta {n : Nat} (r : Bool) (g : Engine n) : (sEmitStep r g).delta = g.delta := by
  unfold sEmitStep; (repeat' split) <;> rfl
@[simp] theorem sEmitStep_e {n : Nat} (r : Bool) (g : Engine n) : (sEmitStep r g).e = g.e := by
  unfold sEmitStep; (repeat' split) <;> rfl
@[simp] theorem sEmitStep_idx {n : Nat} (r : Bool) (g : Engine n) : (sEmitStep r g).idx = g.idx := by
  unfold sEmitStep; (repeat' split) <;> rfl
@[simp] theorem sEmitStep_syn {n : Nat} (r : Bool) (g : Engine n) : (sEmitStep r g).syn = g.syn := by
  unfold sEmitStep; (repeat' split) <;> rfl
@[simp] theorem sEmitStep_cand {n : Nat} (r : Bool) (g : Engine n) : (sEmitStep r g).cand = g.cand := by
  unfold sEmitStep; (repeat' split) <;> rfl

/-! ### updates of the machine -/

@[simp] theorem withEngine_engine (s : State) (g : Engine Config.nmax) : (withEngine s g).engine = g := rfl
@[simp] theorem withEngine_inputs (s : State) (g : Engine Config.nmax) : (withEngine s g).inputs = s.inputs := rfl
@[simp] theorem withEngine_draws (s : State) (g : Engine Config.nmax) : (withEngine s g).draws = s.draws := rfl
@[simp] theorem consumeInputs_engine (s : State) : (consumeInputs s).engine = s.engine := rfl
@[simp] theorem consumeInputs_inputs (s : State) : (consumeInputs s).inputs = s.inputs.tail := rfl
@[simp] theorem consumeInputs_draws (s : State) : (consumeInputs s).draws = s.draws := rfl
@[simp] theorem resetStep_engine (s : State) : (resetStep s).engine = resetEngine Config.nmax s.draws := rfl
@[simp] theorem resetStep_inputs (s : State) : (resetStep s).inputs = s.inputs := rfl
@[simp] theorem resetStep_draws (s : State) : (resetStep s).draws = s.draws + 1 := rfl
@[simp] theorem offerWord_engine (w : CmdWord) (s : State) : (offerWord w s).engine = { s.engine with phase := .idle } := rfl
@[simp] theorem offerWord_inputs (w : CmdWord) (s : State) : (offerWord w s).inputs = { rst := false, cmdValid := true, cmdWord := w, resReady := false } :: s.inputs := rfl
@[simp] theorem offerWord_draws (w : CmdWord) (s : State) : (offerWord w s).draws = s.draws := rfl

end Sys2Proof.Machine
end

