-- ==== Sys2Proof/Laws/Ops.lean ====
section
/-! SUPPORT. One lemma for each shared operation and each micro-step, saying everything it can do: cite these, do not
unfold the operation. -/

namespace Sys2Proof.Machine

/-! ### errors -/

theorem causeCode_ne_zero (c : Cause) : causeCode c ≠ 0 := by cases c <;> decide

/-- The first error wins, and an error is never code 0 (R183). -/
@[simp] theorem raise_err {n : Nat} (c : Cause) (g : Engine n) :
    (raise c g).err = if g.err = 0 then causeCode c else g.err := by
  unfold raise; split <;> simp_all

theorem raise_of_err {n : Nat} (c : Cause) (g : Engine n) (h : g.err ≠ 0) : raise c g = g := if_neg h

theorem raise_of_no_err {n : Nat} (c : Cause) (g : Engine n) (h : g.err = 0) :
    raise c g = { g with err := causeCode c } := if_pos h

@[simp] theorem gated_iff {n : Nat} (g : Engine n) : gated g = true ↔ g.err ≠ 0 := by simp [gated]

@[simp] theorem gated_eq_false_iff {n : Nat} (g : Engine n) : gated g = false ↔ g.err = 0 := by simp [gated]

@[simp] theorem cmdReady_iff {n : Nat} (g : Engine n) : cmdReady g = true ↔ g.phase = .idle := by simp [cmdReady]

@[simp] theorem busy_iff {n : Nat} (g : Engine n) : busy g = true ↔ g.phase ≠ .idle := by simp [busy]

/-! ### commands -/

/-- The three cases of `PUSH` (R162). -/
theorem pushBit_cases {n : Nat} (b : BitVec 1) (g : Engine n) :
    (g.err ≠ 0 ∧ pushBit b g = g) ∨
    (g.err = 0 ∧ g.len.toNat = n ∧ pushBit b g = { g with err := causeCode .lengthOverflow }) ∨
    (g.err = 0 ∧ g.len.toNat ≠ n ∧ pushBit b g = { g with data := shiftIn g.data b, len := g.len + 1 }) := by
  by_cases he : g.err = 0
  · right
    by_cases hl : g.len.toNat = n
    · left; refine ⟨he, hl, ?_⟩
      simp only [pushBit, (gated_eq_false_iff g).2 he, hl, if_true, Bool.false_eq_true, if_false]
      exact raise_of_no_err _ _ he
    · right; refine ⟨he, hl, ?_⟩
      simp only [pushBit, (gated_eq_false_iff g).2 he, hl, Bool.false_eq_true, if_false]
  · left; exact ⟨he, by simp only [pushBit, (gated_iff g).2 he, if_true]⟩

/-- The three cases of `CRC` at acceptance (R111). -/
theorem startCrc_cases {n : Nat} (g : Engine n) :
    (g.err ≠ 0 ∧ startCrc g = { g with crcv := false }) ∨
    (g.err = 0 ∧ g.len.toNat < 8 ∧ startCrc g = { g with crcv := false, err := causeCode .invalidWidth }) ∨
    (g.err = 0 ∧ 8 ≤ g.len.toNat ∧
      startCrc g = { g with crcv := false, acc := g.data, pos := g.len - 1, phase := .cDiv }) := by
  by_cases he : g.err = 0
  · right
    by_cases hl : g.len.toNat < 8
    · left; refine ⟨he, hl, ?_⟩
      simp only [startCrc, (gated_eq_false_iff g).2 he, hl, if_true, Bool.false_eq_true, if_false]
      exact raise_of_no_err _ _ he
    · right; refine ⟨he, by omega, ?_⟩
      simp only [startCrc, (gated_eq_false_iff g).2 he, hl, Bool.false_eq_true, if_false]
      rfl
  · left; exact ⟨he, by simp only [startCrc, (gated_iff g).2 he, if_true]⟩

/-- The three cases of `SOLVE` at acceptance (R140). -/
theorem startSolve_cases {n : Nat} (g : Engine n) :
    (g.err ≠ 0 ∧ startSolve g = g) ∨
    (g.err = 0 ∧ g.len.toNat < 8 ∧ startSolve g = { g with err := causeCode .invalidWidth }) ∨
    (g.err = 0 ∧ 8 ≤ g.len.toNat ∧ startSolve g = { g with lfsr := 0x01, di := 0, phase := .sDelta }) := by
  by_cases he : g.err = 0
  · right
    by_cases hl : g.len.toNat < 8
    · left; refine ⟨he, hl, ?_⟩
      simp only [startSolve, (gated_eq_false_iff g).2 he, hl, if_true, Bool.false_eq_true, if_false]
      exact raise_of_no_err _ _ he
    · right; refine ⟨he, by omega, ?_⟩
      simp only [startSolve, (gated_eq_false_iff g).2 he, hl, Bool.false_eq_true, if_false]
  · left; exact ⟨he, by simp only [startSolve, (gated_iff g).2 he, if_true]⟩

theorem offerCommand_idle (f : Engine Config.nmax → Engine Config.nmax) (s : State) (h : s.engine.phase = .idle) :
    offerCommand f s = .next (withEngine s (f s.engine)) := by simp [offerCommand, h]

theorem offerCommand_of_busy (f : Engine Config.nmax → Engine Config.nmax) (s : State) (h : s.engine.phase ≠ .idle) :
    offerCommand f s = .next s := by simp [offerCommand, h]

/-- Everything an offered command can do. -/
theorem offerCommand_next_iff (f : Engine Config.nmax → Engine Config.nmax) (s t : State) :
    offerCommand f s = .next t ↔
      (s.engine.phase = .idle ∧ t = withEngine s (f s.engine)) ∨ (s.engine.phase ≠ .idle ∧ t = s) := by
  by_cases h : s.engine.phase = .idle <;> simp [offerCommand, h, eq_comm]

/-- The rule each instruction applies at acceptance. -/
def ruleOf : Instr → Engine Config.nmax → Engine Config.nmax
  | .clr => clearEngine
  | .push b => pushBit b
  | .setpoly p => setPoly p
  | .setmax m => setMax m
  | .setexp x => setExp x
  | .crc => startCrc
  | .solve => startSolve

/-- Every instruction is its rule, offered. -/
theorem exec_eq (i : Instr) (s : State) : exec i s = offerCommand (ruleOf i) s := by cases i <;> rfl

/-! ### the machine around its engine -/

theorem liftEngine_next_iff (s t : State) (o : Answer (Engine Config.nmax)) :
    liftEngine s o = .next t ↔ ∃ g, o = .next g ∧ t = withEngine s g := by
  cases o <;> simp [liftEngine, eq_comm]

/-- Everything one step of the machine can do, when it answers a next state. -/
theorem step_cases {s t : State} (h : step s = .next t) :
    (resets s = true ∧ t = resetStep (consumeInputs s)) ∨
    (resets s = false ∧ accepts s = true ∧ s.engine.phase = .idle ∧
      ((∃ i, decode (currentInputs s).cmdWord = .ok i ∧
          t = withEngine (consumeInputs s) (ruleOf i s.engine)) ∨
       (∃ r, decode (currentInputs s).cmdWord = .error r ∧
          t = withEngine (consumeInputs s) (raise .illegalCommand s.engine)))) ∨
    (resets s = false ∧ accepts s = false ∧ wordChanged s = false ∧
      ∃ g, engineStep (currentInputs s).resReady s.engine = .next g ∧ t = withEngine (consumeInputs s) g) := by
  unfold step cycle at h
  by_cases hr : (currentInputs s).rst = true
  · left; simp_all [resets]
  · right
    by_cases ha : ((currentInputs s).cmdValid && cmdReady s.engine) = true
    · left
      have hi : s.engine.phase = .idle := by simp_all
      refine ⟨by simpa [resets] using hr, by simp_all [accepts, resets], hi, ?_⟩
      simp only [hr, ha, if_true, commandStep] at h
      cases hd : decode (currentInputs s).cmdWord with
      | ok i => simp_all [exec_eq, offerCommand]
      | error r => simp_all [illegalCommand, offerCommand]
    · right
      have ha' : accepts s = false := by
        simp only [accepts, Bool.and_assoc, ha, Bool.and_eq_false_imp, Bool.not_eq_true']
        intro _; simp
      refine ⟨by simpa [resets] using hr, ha', ?_⟩
      by_cases hw : wordChanged s = true
      · simp_all
      · refine ⟨by simpa using hw, ?_⟩
        simp_all [liftEngine_next_iff]

/-- A step uses up one entry of what the host drives. -/
theorem step_inputs {s t : State} (h : step s = .next t) : t.inputs = s.inputs.tail := by
  rcases step_cases h with ⟨-, rfl⟩ | ⟨-, -, -, ⟨_, -, rfl⟩ | ⟨_, -, rfl⟩⟩ | ⟨-, -, -, _, -, rfl⟩ <;> simp

/-- A host that is always ready never keeps a result waiting. -/
theorem waits_acceptAll (k : Nat) (s : State) (h : s.inputs = List.replicate k acceptAll) : waits k s = 0 := by
  induction k generalizing s with
  | zero => rfl
  | succ k ih =>
    have hr : (currentInputs s).resReady = true := by simp [currentInputs, h, List.replicate_succ, acceptAll]
    cases hs : step s with
    | next t => simp [waits, hs, hr, ih t (by simp [step_inputs hs, h])]
    | fault => simp [waits, hs]
    | refused => simp [waits, hs]

/-- Such a host resets nothing and changes no word. -/
theorem hostKeepsOff_acceptAll (k m : Nat) (s : State) (h : s.inputs = List.replicate k acceptAll) : HostKeepsOff m s := by
  intro i _
  simp only [h, List.drop_replicate]
  match k - i with
  | 0 => exact ⟨rfl, rfl⟩
  | 1 => exact ⟨rfl, rfl⟩
  | _ + 2 => exact ⟨rfl, rfl⟩

/-! ### the micro-steps -/

/-- Everything `DIVSTEP` can do (R110). -/
theorem divStep_next_iff {n : Nat} (g g' : Engine n) :
    divStep g = .next g' ↔
      8 ≤ g.pos.toNat ∧ g.pos.toNat < g.len.toNat ∧
        g' = { g with acc := divideBit g.poly g.pos.toNat g.acc, pos := g.pos - 1 } := by
  unfold divStep; split
  · rename_i h; simp [h, eq_comm]
  · rename_i h; simp; omega

/-- Everything a micro-step of `C_DIV` can do (R112). -/
theorem cDivStep_next_iff {n : Nat} (g g' : Engine n) :
    cDivStep g = .next g' ↔
      (g.pos ≠ 7 ∧ divStep g = .next g') ∨
      (g.pos = 7 ∧ g' = { g with crc := lowByte g.acc, crcv := true, phase := .idle }) := by
  unfold cDivStep; split <;> simp_all [eq_comm]

/-- Everything a micro-step of `S_DELTA` can do (R142). -/
theorem sDeltaStep_next_iff {n : Nat} (g g' : Engine n) :
    sDeltaStep g = .next g' ↔
      (g.di.toNat < g.len.toNat ∧ ∃ h : g.di.toNat < n,
        g' = { g with delta := g.delta.set g.di.toNat g.lfsr h, lfsr := lfsrNext g.lfsr g.poly, di := g.di + 1 }) ∨
      (g.len.toNat ≤ g.di.toNat ∧ g' = { g with acc := g.data, pos := g.len - 1, phase := .sBase }) := by
  unfold sDeltaStep
  by_cases h1 : g.di.toNat < g.len.toNat
  · by_cases h2 : g.di.toNat < n
    · simp [h1, h2, eq_comm]
    · simp [h1, h2]
  · simp [h1, loadDivision, eq_comm]; omega

/-- Everything a micro-step of `S_BASE` can do (R143). -/
theorem sBaseStep_next_iff {n : Nat} (g g' : Engine n) :
    sBaseStep g = .next g' ↔
      (g.pos ≠ 7 ∧ divStep g = .next g') ∨
      (g.pos = 7 ∧ g' = { g with base := lowByte g.acc, e := 0, phase := .sEval }) := by
  unfold sBaseStep; split <;> simp_all [eq_comm]

/-- Everything a micro-step of `S_EVAL` can do (R144). -/
theorem sEvalStep_next {n : Nat} {g g' : Engine n} (h : sEvalStep g = .next g') :
    ∃ t d, currentPattern g = some t ∧ tableSum g.delta t = some d ∧
      ((g.base ^^^ d = g.expected ∧
          g' = { g with syn := g.base ^^^ d, cand := flipBits g.data t, acc := flipBits g.data t, pos := g.len - 1,
                        phase := .sVerify }) ∨
       (g.base ^^^ d ≠ g.expected ∧ g' = { g with syn := g.base ^^^ d, phase := .sNext })) := by
  unfold sEvalStep at h
  cases hp : currentPattern g with
  | none => simp [hp] at h
  | some t =>
    cases hs : tableSum g.delta t with
    | none => simp [hp, hs] at h
    | some d =>
      refine ⟨t, d, rfl, hs, ?_⟩
      by_cases hx : g.base ^^^ d = g.expected
      · left; refine ⟨hx, ?_⟩
        simp only [hp, hs, hx, if_true] at h
        simpa [loadDivision, hx] using h.symm
      · right; refine ⟨hx, ?_⟩
        simp only [hp, hs, hx, if_false] at h
        simpa using h.symm

/-- Everything a micro-step of `S_VERIFY` can do (R145). -/
theorem sVerifyStep_next_iff {n : Nat} (g g' : Engine n) :
    sVerifyStep g = .next g' ↔
      (g.pos ≠ 7 ∧ divStep g = .next g') ∨
      (g.pos = 7 ∧ g' = { g with resCw := g.cand, resCrc := lowByte g.acc, resv := true, phase := .sEmit }) := by
  unfold sVerifyStep emit; split <;> simp_all [eq_comm]

/-- Everything a micro-step of `S_NEXT` can do (R147). -/
theorem sNextStep_next {n : Nat} {g g' : Engine n} (h : sNextStep g = .next g') :
    ∃ t, currentPattern g = some t ∧
      ((∃ t', successor g.len.toNat t = some t' ∧
          g' = { g with idx := storePattern g.idx t', phase := .sEval }) ∨
       (successor g.len.toNat t = none ∧ (g.e = g.maxerr ∨ g.e = g.len) ∧ g' = { g with phase := .idle }) ∨
       (successor g.len.toNat t = none ∧ g.e ≠ g.maxerr ∧ g.e ≠ g.len ∧ g.e.toNat < n ∧
          g' = { g with e := g.e + 1, idx := storePattern g.idx (List.range (g.e.toNat + 1)), phase := .sEval })) := by
  unfold sNextStep at h
  cases hp : currentPattern g with
  | none => simp [hp] at h
  | some t =>
    refine ⟨t, rfl, ?_⟩
    cases hs : successor g.len.toNat t with
    | some t' => left; exact ⟨t', rfl, by simpa [hp, hs] using h.symm⟩
    | none =>
      right
      by_cases hx : g.e = g.maxerr ∨ g.e = g.len
      · left; exact ⟨rfl, hx, by simpa [hp, hs, hx] using h.symm⟩
      · right
        by_cases hn : g.e.toNat < n
        · refine ⟨rfl, fun q => hx (.inl q), fun q => hx (.inr q), hn, ?_⟩
          simp only [hp, hs, hx, hn, if_true, if_false] at h
          simpa using h.symm
        · simp [hp, hs, hx, hn] at h

/-! ### table operands -/

/-- Within the table's size the current pattern is the first `E` entries of `IDX`. -/
theorem currentPattern_eq {n : Nat} (g : Engine n) (h : g.e.toNat ≤ n) : currentPattern g = some (patternOf g) := by
  simp [currentPattern, patternOf, h]

theorem currentPattern_some {n : Nat} {g : Engine n} {t : List Nat} (h : currentPattern g = some t) :
    g.e.toNat ≤ n ∧ t = patternOf g := by
  unfold currentPattern at h; split at h
  · simp_all [patternOf]
  · simp at h

@[simp] theorem patternOf_length {n : Nat} (g : Engine n) : (patternOf g).length = min g.e.toNat n := by
  simp [patternOf]

/-- An entry of the stored pattern, and an entry beyond it. -/
theorem storePattern_getElem {n : Nat} (idx : Vector Count n) (t : List Nat) (k : Nat) (h : k < n) :
    (storePattern idx t)[k] = if hk : k < t.length then BitVec.ofNat 12 t[k] else idx[k] := by
  unfold storePattern
  by_cases hk : k < t.length <;> simp [hk]

/-- The table sum of positions all in range never fails. -/
theorem tableSum_isSome {n : Nat} (table : Vector Checksum n) (t : List Nat) (h : ∀ i ∈ t, i < n) :
    ∃ d, tableSum table t = some d := by
  induction t with
  | nil => exact ⟨0, rfl⟩
  | cons i t ih =>
    obtain ⟨d, hd⟩ := ih fun j hj => h j (by simp [hj])
    have hi : i < n := h i (by simp)
    exact ⟨table[i] ^^^ d, by simp [tableSum, hd, hi]⟩

end Sys2Proof.Machine
end

