-- ==== Sys2Proof/Laws/PerInstr.lean ====
section
/-! SUPPORT. The families of statements about every instruction as written. `OpcodeField`: the encoding of an
instruction carries its opcode in bits `15:12` (spec/30_encoding.md R70, R71), one lemma a constructor. -/

namespace Sys2Proof.Laws.OpcodeField

/-- The opcode of each command, the `op` column of R71. -/
def opcodeOf : Instr → BitVec 4
  | .clr => 0x1
  | .push _ => 0x2
  | .setpoly _ => 0x3
  | .setmax _ => 0x4
  | .setexp _ => 0x5
  | .crc => 0x6
  | .solve => 0x7

/-- `op = w[15:12]` of the instruction's word is its opcode. -/
def Statement (i : Instr) : Prop := opField (encode i) = opcodeOf i

theorem clr : Statement .clr := by unfold Statement; decide

theorem push (b : BitVec 1) : Statement (.push b) := by revert b; unfold Statement; decide

theorem setpoly (p : Poly) : Statement (.setpoly p) := by
  unfold Statement opField encode matchBits immediate opcodeOf
  ext i hi
  have : i = 0 ∨ i = 1 ∨ i = 2 ∨ i = 3 := by omega
  rcases this with rfl | rfl | rfl | rfl <;> simp

theorem setmax (m : Count) : Statement (.setmax m) := by
  unfold Statement opField encode matchBits immediate opcodeOf
  ext i hi
  have : i = 0 ∨ i = 1 ∨ i = 2 ∨ i = 3 := by omega
  rcases this with rfl | rfl | rfl | rfl <;> simp

theorem setexp (x : Checksum) : Statement (.setexp x) := by
  unfold Statement opField encode matchBits immediate opcodeOf
  ext i hi
  have : i = 0 ∨ i = 1 ∨ i = 2 ∨ i = 3 := by omega
  rcases this with rfl | rfl | rfl | rfl <;> simp

theorem crc : Statement .crc := by unfold Statement; decide

theorem solve : Statement .solve := by unfold Statement; decide

end Sys2Proof.Laws.OpcodeField
end

