-- ==== Sys2Proof/Tests/Slice0.lean ====
section
/-! SUPPORT. The model's own tests. Expected values come from spec/95_test_vectors.md and spec/30_encoding.md, named in each
test's comment; a `witness_` theorem shows that the hypotheses of the obligation it is named after can be met. -/

namespace Sys2Proof.Tests

open Sys2Proof.Machine

/-! ### Decoding and encoding: words written out bit by bit from R71 -/

theorem test_decode_clr : decode 0b0001000000000000 = .ok .clr := by decide
theorem test_decode_push_one : decode 0b0010000000000001 = .ok (.push 1) := by decide
theorem test_decode_push_zero : decode 0b0010000000000000 = .ok (.push 0) := by decide
/-- V-ENC-2: `0x30FF`. -/
theorem test_decode_setpoly : decode 0b0011000011111111 = .ok (.setpoly 0x0FF) := by decide
/-- Bit 8 of the immediate is the polynomial's top bit. -/
theorem test_decode_setpoly_top : decode 0b0011000100000001 = .ok (.setpoly 0b100000001) := by decide
/-- V-ENC-2: `0x4ABC`. -/
theorem test_decode_setmax : decode 0b0100101010111100 = .ok (.setmax 2748) := by decide
/-- V-ENC-2: `0x505F`. -/
theorem test_decode_setexp : decode 0b0101000001011111 = .ok (.setexp 0x5F) := by decide
theorem test_decode_crc : decode 0b0110000000000000 = .ok .crc := by decide
theorem test_decode_solve : decode 0b0111000000000000 = .ok .solve := by decide

/-- V-ENC-3: the illegal words, with the reason given there. -/
theorem test_decode_illegal :
    decode 0x0000 = .error .reservedOpcode ∧ decode 0x0FFF = .error .reservedOpcode ∧
    decode 0x1800 = .error .unusedImmediate ∧ decode 0x2801 = .error .unusedImmediate ∧
    decode 0x3200 = .error .unusedImmediate ∧ decode 0x5FFF = .error .unusedImmediate ∧
    decode 0x6001 = .error .unusedImmediate ∧ decode 0x7FFF = .error .unusedImmediate ∧
    decode 0x8000 = .error .reservedOpcode ∧ decode 0xA5A5 = .error .reservedOpcode ∧
    decode 0xFFFF = .error .reservedOpcode := by decide

/-- V-ENC-1. -/
theorem test_encode :
    [encode .clr, encode (.push 1), encode (.setpoly 0x1FF), encode (.setmax 4095), encode (.setexp 0xAD), encode .crc,
      encode .solve] = [0x1000, 0x2001, 0x31FF, 0x4FFF, 0x50AD, 0x6000, 0x7000] := by decide

theorem test_decodeTableWord :
    decodeTableWord 16 0x311D = some (.setpoly 0x11D) ∧ decodeTableWord 16 0x2002 = none ∧
    decodeTableWord 32 0x2001 = none := by decide

/-! ### Well-formedness: an ill-formed term for each check (R80) -/

theorem test_wellFormed_push : (SourceCommand.push 2).wellFormed = false := by decide
theorem test_wellFormed_setpoly : (SourceCommand.setpoly 0x200).wellFormed = false := by decide
theorem test_wellFormed_setmax : (SourceCommand.setmax 4096).wellFormed = false := by decide
theorem test_wellFormed_setexp : (SourceCommand.setexp 0x100).wellFormed = false := by decide

/-- V-ENC-5: `PUSHS "1_0x1"`. -/
theorem test_pushs : assembleText ["PUSHS \"1_0x1\" ; skips".toList] = some [0x2001, 0x2000, 0x2001] := by decide
/-- R80: the three number bases, a comment, an empty line. -/
theorem test_assemble : assembleText ["SETPOLY 0x11D ; poly".toList, "".toList, "SETMAX 3".toList, "PUSH 0b1".toList] =
    some [0x311D, 0x4003, 0x2001] := by decide
/-- R80: an operand out of range is an assembly error. -/
theorem test_assemble_error : assembleText ["SETEXP 256".toList] = none := by decide

/-! ### Small states -/

/-- An idle engine of zeros. -/
def zeroEngine (n : Nat) : Engine n where
  data := 0
  len := 0
  poly := 0x107
  maxerr := 0
  expected := 0
  crc := 0
  crcv := false
  err := 0
  resv := false
  resCw := 0
  resCrc := 0
  phase := .idle
  acc := 0
  pos := 0
  base := 0
  lfsr := 0
  di := 0
  delta := Vector.replicate n 0
  e := 0
  idx := Vector.replicate n 0
  syn := 0
  cand := 0

/-- A machine with the given engine and inputs. -/
def stateOf (g : Engine Config.nmax) (inputs : List Inputs) : State := { engine := g, inputs := inputs, draws := 0 }

/-- Whether an answer is a next state with the property. -/
def nextHas {σ : Type} (o : Answer σ) (p : σ → Bool) : Bool :=
  match o with
  | .next s => p s
  | .fault _ => false
  | .refused _ => false

/-- The word `w` offered. -/
def offer (w : CmdWord) : Inputs := { Inputs.quiet with cmdValid := true, cmdWord := w }

/-! ### Instructions -/

/-- V-CMD-3: `CLR` from a full engine gives the reset values. -/
theorem test_clr :
    let g := clearEngine { zeroEngine 16 with data := 0x2A5, len := 10, poly := 0x11D, maxerr := 3, expected := 0xAC, crc := 0xAB, crcv := true }
    (g.data, g.len, g.poly, g.maxerr, g.expected, g.crc, g.crcv) = (0, 0, 0x107, 0, 0, 0, false) := by decide

/-- V-CMD-1: words `1 0 1 0` give `DATA = 0xA`, `LEN = 4`. -/
theorem test_push :
    let g := [(1 : BitVec 1), 0, 1, 0].foldl (fun h b => pushBit b h) (zeroEngine 16)
    (g.data, g.len) = (0xA, 4) := by decide

/-- V-ERR-4: the ninth bit of an engine with `NMAX = 8`. -/
theorem test_push_overflow :
    let g := pushBit 0 { zeroEngine 8 with data := 0xFF, len := 8 }
    (g.data, g.len, g.err) = (0xFF, 8, 3) := by decide

/-- V-CMD-2, as the first step after reset. -/
theorem test_setpoly : nextHas (step (State.reset.withFetchWord 16 0x311D)) (fun t => t.engine.poly == 0x11D) = true := by
  decide
theorem test_setmax : nextHas (step (State.reset.withFetchWord 16 0x4FFF)) (fun t => t.engine.maxerr == 4095) = true := by
  decide
theorem test_setexp : nextHas (step (State.reset.withFetchWord 16 0x50FF)) (fun t => t.engine.expected == 0xFF) = true := by
  decide

/-- V-ERR-7: `SETPOLY` acts while `ERR = 1`. -/
theorem test_setpoly_under_error :
    nextHas (exec (.setpoly 0x11D) (stateOf { zeroEngine _ with err := 1 } [])) (fun t => t.engine.poly == 0x11D && t.engine.err == 1) = true := by
  decide

/-- V-STEP-1: acceptance of `CRC` on `0xAA00`, 16 bits. -/
theorem test_crc_starts :
    let g := startCrc { zeroEngine 16 with data := 0xAA00, len := 16, crcv := true }
    (g.acc, g.pos, g.crcv, g.phase) = (0xAA00, 15, false, .cDiv) := by decide
/-- V-ERR-1: `CRC` with 7 bits. -/
theorem test_crc_invalid_width :
    let g := startCrc { zeroEngine 16 with data := 0x55, len := 7 }
    (g.err, g.crcv, g.phase) = (1, false, .idle) := by decide

/-- V-SOL-11's start, and V-ERR-2: an empty sequence. -/
theorem test_solve_starts :
    let g := startSolve { zeroEngine 8 with data := 0xA5, len := 8, lfsr := 0x77, di := 5 }
    (g.lfsr, g.di, g.phase) = (1, 0, .sDelta) := by decide
theorem test_solve_empty : nextHas (step (State.reset.withFetchWord 16 0x7000)) (fun t => t.engine.err == 1 && t.engine.phase == .idle) = true := by
  decide

/-- V-ERR-5: an illegal word; V-ERR-6: the first error wins. -/
theorem test_illegal : nextHas (step (State.reset.withFetchWord 16 0x2002)) (fun t => t.engine.err == 4) = true := by decide
theorem test_illegal_keeps_first :
    nextHas (step (stateOf { zeroEngine _ with err := 1 } [offer 0xFFFF])) (fun t => t.engine.err == 1) = true := by decide

/-! ### Micro-steps -/

/-- V-STEP-1: the first and the last steps of `C_DIV`. -/
theorem test_divstep : nextHas (engineStep false { zeroEngine 16 with len := 16, acc := 0xAA00, pos := 15, phase := .cDiv })
    (fun h => h.acc == 0x2980 && h.pos == 14) = true := by decide
theorem test_cdiv_ends : nextHas (engineStep false { zeroEngine 16 with len := 16, acc := 0x005F, pos := 7, phase := .cDiv })
    (fun h => h.crc == 0x5F && h.crcv && h.phase == .idle) = true := by decide

/-- V-STEP-2, step 8: `DELTA[7] <- 80`, `LFSR = 07`, `DI = 8`. -/
theorem test_sdelta : nextHas (engineStep false { zeroEngine 8 with len := 8, lfsr := 0x80, di := 7, phase := .sDelta })
    (fun h => h.delta[7] == 0x80 && h.lfsr == 0x07 && h.di == 8) = true := by decide

/-- V-STEP-2, step 13: pattern `(0)` matches. -/
theorem test_seval_match :
    nextHas (engineStep false { zeroEngine 8 with data := 0xA5, len := 8, base := 0xA5, expected := 0xA4, delta := #v[1, 2, 4, 8, 16, 32, 64, 128], e := 1, phase := .sEval })
      (fun h => h.syn == 0xA4 && h.cand == 0xA4 && h.acc == 0xA4 && h.pos == 7 && h.phase == .sVerify) = true := by decide

/-- V-COMB-2: from `(0,1,4)` with `LEN = 5`, `E = 3` to `(0,2,3)`. -/
theorem test_snext : nextHas (engineStep false { zeroEngine 5 with len := 5, maxerr := 3, e := 3, idx := #v[0, 1, 4, 9, 9], phase := .sNext })
    (fun h => h.idx == #v[0, 2, 3, 9, 9] && h.phase == .sEval) = true := by decide
/-- V-COMB-2: from `(2,3,4)` with `MAXERR >= 4` to tier 4. -/
theorem test_snext_tier : nextHas (engineStep false { zeroEngine 5 with len := 5, maxerr := 9, e := 3, idx := #v[2, 3, 4, 9, 9], phase := .sNext })
    (fun h => h.idx == #v[0, 1, 2, 3, 9] && h.e == 4) = true := by decide

/-- V-STEP-2, step 14 and the acceptance after it; without `res_ready` the engine holds (R146). -/
theorem test_emit : nextHas (engineStep false { zeroEngine 8 with len := 8, acc := 0xA4, cand := 0xA4, pos := 7, phase := .sVerify })
    (fun h => h.resCw == 0xA4 && h.resCrc == 0xA4 && h.resv && h.phase == .sEmit) = true := by decide
theorem test_accept : (sEmitStep true { zeroEngine 8 with resv := true, phase := .sEmit }).phase = .sNext ∧
    (sEmitStep false { zeroEngine 8 with resv := true, phase := .sEmit }).phase = .sEmit := by decide

/-- R200: reset during an operation. -/
theorem test_reset : nextHas (step (stateOf { zeroEngine _ with len := 8, phase := .sDelta } [{ Inputs.quiet with rst := true }]))
    (fun t => t.engine.phase == .idle && t.engine.len == 0 && t.engine.poly == 0x107) = true := by decide

/-! ### Functions -/

/-- V-CRC-1, V-CRC-12, V-CRC-10 (`0x131`). -/
theorem test_crc8 : crc8 (0xAA00#16) 16 0x107 = 0x5F ∧ crc8 (0x31323334353637383900#80) 80 0x107 = 0xF4 ∧
    crc8 (0xAA00#16) 16 0x131 = 0x27 := by
  refine ⟨by decide, by decide +kernel, by decide⟩
/-- V-CRC-10 (`0x007`): the tested bits are not cleared. -/
theorem test_divide : divide (0xAA00#16) 16 0x007 = 0xA95F := by decide
/-- V-CRC-14. -/
theorem test_serial : serialCrc (0xAA00#16) 16 0x107 = 0x5F := by decide
/-- V-DEL-4. -/
theorem test_lfsrNext : lfsrNext 0x80 0x007 = 0x07 ∧ lfsrNext 0xE0 0x107 = 0xC7 ∧ lfsrNext 0xFF 0x1FF = 0x01 := by decide
/-- V-DEL-1, position 23. -/
theorem test_delta : deltaGen 0x107 23 = 0xB6 ∧ delta 24 23 0x107 = 0xB6 := by decide +kernel
/-- V-COMB-1. -/
theorem test_comb : comb 4 2 = [[0, 1], [0, 2], [0, 3], [1, 2], [1, 3], [2, 3]] ∧ comb 3 4 = [] := by decide
/-- V-SOL-15. -/
theorem test_solve : solve (0x1FF#9) 9 0x100 1 0xFF = [(0x1FF, 0xFF), (0x0FF, 0xFF)] := by decide

/-! ### Witnesses: the hypotheses of each obligation can be met -/

/-- An idle engine with an empty sequence register meets R42. -/
theorem legal_of_idle {n : Nat} (g : Engine n) (hp : g.phase = .idle) (hl : g.len.toNat ≤ n) (hd : g.data = 0)
    (hr : g.resv = false) : Legal g where
  len_le := hl
  data_lt := by simp [hd]
  resv_iff := by simp [hp, hr]
  dividing := by simp [hp]
  searching := by simp [hp]
  filling := by simp [hp]
  filled := by simp [hp]
  working := by simp [hp]

/-- Eight bits loaded. -/
def loaded : Engine Config.nmax := { zeroEngine _ with len := 8 }

theorem legal_loaded : Legal loaded := legal_of_idle _ rfl Laws.nmax_ge rfl rfl

/-- The last division step of a `CRC` on eight bits. -/
def dividing : Engine Config.nmax := { loaded with pos := 7, phase := .cDiv }

theorem legal_dividing : Legal dividing where
  len_le := Laws.nmax_ge
  data_lt := by simp [dividing, loaded, zeroEngine]
  resv_iff := by decide
  dividing := by simp [dividing, loaded, zeroEngine]
  searching := by decide
  filling := by simp [dividing]
  filled := by simp [dividing]
  working := by decide

/-- A full sequence register. -/
def full : Engine Config.nmax := { zeroEngine _ with len := BitVec.ofNat 12 Config.nmax }

theorem full_len : full.len.toNat = Config.nmax := by
  have h := Laws.nmax_le
  simp [full]; omega

theorem witness_EncodeInvertsDecode : decode 0x311D = .ok (.setpoly 0x11D) := by decide
theorem witness_OpcodeTableSelectsCommand : (⟨"SETMAX", 0x4000, 0xF000⟩ : OpcodeRow) ∈ opcodeTable ∧
    (⟨"SETMAX", 0x4000, 0xF000⟩ : OpcodeRow).accepts 0x4ABC = true := by decide
theorem witness_AssemblerEmitsLegalWords : (∀ c ∈ [SourceCommand.setmax 4095, .pad8], c.wellFormed = true) ∧
    (∃ c ∈ [SourceCommand.clr, .push 2], c.wellFormed = false) ∧ assemble [.push 1] = some [0x2001] := by decide
theorem witness_ClrRestoresDefaults : (stateOf (zeroEngine _) []).engine.phase = .idle ∧
    ∃ t, exec .clr (stateOf { zeroEngine _ with err := 1 } []) = .next t ∧
      (stateOf { zeroEngine _ with err := 1 } []).engine.err ≠ 0 ∧ t.engine.err = 0 := ⟨rfl, _, rfl, by decide, rfl⟩
theorem witness_PushAppendsBit :
    (∃ s : State, s.engine.phase = .idle ∧ s.engine.err ≠ 0) ∧
    (∃ s : State, s.engine.phase = .idle ∧ s.engine.err = 0 ∧ s.engine.len.toNat = Config.nmax) ∧
    (∃ s : State, s.engine.phase = .idle ∧ s.engine.err = 0 ∧ s.engine.len.toNat ≠ Config.nmax ∧ Legal s.engine) :=
  ⟨⟨stateOf { zeroEngine _ with err := 3 } [], rfl, by decide⟩, ⟨stateOf full [], rfl, rfl, full_len⟩,
    ⟨stateOf (zeroEngine _) [], rfl, rfl, by decide, legal_of_idle _ rfl (Nat.zero_le _) rfl rfl⟩⟩
theorem witness_PushedBitsAreMostSignificantFirst : (8 : Nat) ≤ 4095 ∧ (zeroEngine 8).data = 0 ∧ (zeroEngine 8).len = 0 ∧
    (zeroEngine 8).err = 0 ∧ ([1, 0, 1, 0, 0, 1, 0, 1] : List (BitVec 1)).length ≤ 8 := by decide
theorem witness_SetpolyWritesPoly : (stateOf (zeroEngine _) []).engine.phase = .idle ∧
    (stateOf dividing []).engine.phase ≠ .idle ∧ opField 0x3200 = 0x3 ∧ 512 ≤ (immField 0x3200).toNat := by decide
theorem witness_SetmaxWritesMaxerr : (stateOf { zeroEngine _ with err := 1 } []).engine.phase = .idle ∧
    opField 0x4ABC = 0x4 := by decide
theorem witness_SetexpWritesExpected : (stateOf full []).engine.phase = .idle := rfl
theorem witness_CrcStartsDivision :
    (∃ s : State, s.engine.phase ≠ .idle) ∧
    (∃ s : State, s.engine.phase = .idle ∧ s.engine.err ≠ 0) ∧
    (∃ s : State, s.engine.phase = .idle ∧ s.engine.err = 0 ∧ s.engine.len.toNat < 8) ∧
    (∃ s : State, s.engine.phase = .idle ∧ s.engine.err = 0 ∧ 8 ≤ s.engine.len.toNat) :=
  ⟨⟨stateOf dividing [], by decide⟩, ⟨stateOf { zeroEngine _ with err := 4 } [], rfl, by decide⟩,
    ⟨stateOf { zeroEngine _ with len := 7 } [], rfl, rfl, by decide⟩, ⟨stateOf loaded [], rfl, rfl, by decide⟩⟩
theorem witness_SolveStartsDeltas :
    (∃ s : State, s.engine.phase ≠ .idle) ∧
    (∃ s : State, s.engine.phase = .idle ∧ s.engine.err ≠ 0) ∧
    (∃ s : State, s.engine.phase = .idle ∧ s.engine.err = 0 ∧ s.engine.len.toNat < 8) ∧
    (∃ s : State, s.engine.phase = .idle ∧ s.engine.err = 0 ∧ 8 ≤ s.engine.len.toNat) := witness_CrcStartsDivision
theorem witness_IllegalWordRaisesIllegalCommand :
    accepts (stateOf (zeroEngine _) [offer 0x2002]) = true ∧
    decode (currentInputs (stateOf (zeroEngine _) [offer 0x2002])).cmdWord = .error .unusedImmediate := by decide
theorem witness_ErrorGatesCommands : (stateOf { loaded with err := 3 } []).engine.phase = .idle ∧
    (stateOf { loaded with err := 3 } []).engine.err ≠ 0 := by decide
theorem witness_CommandsWriteOnlyTheirRegisters :
    (∀ i, ∃ t, exec i (stateOf loaded []) = .next t) ∧
    (∀ i, ∃ t, exec i (stateOf { loaded with err := 1 } []) = .next t) ∧ (stateOf { loaded with err := 1 } []).engine.err ≠ 0 :=
  ⟨fun i => ⟨_, exec_eq i _⟩, fun i => ⟨_, exec_eq i _⟩, by decide⟩
theorem witness_StepRunsAcceptedCommand : accepts (stateOf loaded [offer 0x6000]) = true ∧
    decode (currentInputs (stateOf loaded [offer 0x6000])).cmdWord = .ok .crc := by decide
theorem witness_FetchWordRunsNext : decode 0x7000 = .ok .solve := by decide
theorem witness_BusyEngineAcceptsNoCommand : (stateOf dividing [offer 0x1000]).engine.phase ≠ .idle ∧
    (stateOf dividing [offer 0x1000]).inputs = [offer 0x1000] ∧ wordChanged (stateOf dividing [offer 0x1000]) = false := by
  decide
theorem witness_ResetGivesResetValues : resets (stateOf dividing [{ Inputs.quiet with rst := true }]) = true := by decide
theorem witness_StepKeepsLegal : Legal (stateOf dividing []).engine ∧ ∃ t, step (stateOf dividing []) = .next t :=
  ⟨legal_dividing, _, rfl⟩
theorem witness_LegalStepAnswersNext : Legal dividing ∧ hostKeepsWord (stateOf dividing [offer 0x1000]) = true ∧
    hostKeepsWord (stateOf dividing [offer 0x1000, offer 0x2000]) = false := ⟨legal_dividing, by decide, by decide⟩
theorem witness_BusyEngineKeepsOperands : (stateOf dividing []).engine.phase ≠ .idle ∧ resets (stateOf dividing []) = false ∧
    (∃ t, step (stateOf dividing []) = .next t) ∧ Legal dividing := ⟨by decide, by decide, ⟨_, rfl⟩, legal_dividing⟩
theorem witness_StepKeepsExact : Legal dividing ∧ Exact dividing ∧ ∃ t, step (stateOf dividing []) = .next t :=
  ⟨legal_dividing,
    { dividing := fun _ => rfl
      based := by simp [dividing]
      matched := by simp [dividing]
      verifying := by simp [dividing]
      held := by simp [dividing] }, _, rfl⟩
theorem witness_ErrIsStickyUntilClrOrReset : ({ loaded with err := 1 } : Engine Config.nmax).err ≠ 0 ∧
    (∃ t, step (stateOf { loaded with err := 1 } [offer 0x2001]) = .next t) ∧
    (∃ t, step (stateOf { loaded with err := 1 } [offer 0x1000]) = .next t ∧ t.engine.err = 0) ∧
    (∃ t, step (stateOf { loaded with err := 1 } [{ Inputs.quiet with rst := true }]) = .next t ∧ t.engine.err = 0) :=
  ⟨by decide, ⟨_, rfl⟩, ⟨_, rfl, rfl⟩, ⟨_, rfl, rfl⟩⟩
theorem witness_ErrCodeStaysDefined : (stateOf full [offer 0x2001]).engine.err ∈ ([0, 1, 3, 4] : List ErrCode) ∧
    ∃ t, step (stateOf full [offer 0x2001]) = .next t := ⟨by decide, _, rfl⟩
theorem witness_IdleEngineWaits : loaded.phase = .idle ∧ resets (stateOf loaded []) = false ∧
    (currentInputs (stateOf loaded [])).cmdValid = false := by decide

/-- An engine that holds a result. -/
def holding (n : Nat) : Engine n := { zeroEngine n with len := 8, resv := true, phase := .sEmit }

theorem witness_ResultIsHeldUntilAccepted :
    ((holding Config.nmax).phase = .sEmit ∧ resets (stateOf (holding _) [Inputs.quiet]) = false ∧
      (currentInputs (stateOf (holding _) [Inputs.quiet])).resReady = false ∧
      wordChanged (stateOf (holding _) [Inputs.quiet]) = false) ∧
    ((holding Config.nmax).phase = .sEmit ∧ (holding Config.nmax).resv = true ∧
      resets (stateOf (holding _) [acceptAll]) = false ∧ (currentInputs (stateOf (holding _) [acceptAll])).resReady = true ∧
      wordChanged (stateOf (holding _) [acceptAll]) = false) ∧
    ((stateOf dividing [acceptAll]).engine.resv = false ∧ (stateOf dividing [acceptAll]).inputs = [acceptAll]) := by decide
theorem witness_ChecksumIsPolynomialRemainder : (8 : Nat) ≤ 16 ∧ (16 : Nat) ≤ 24 := by decide
theorem witness_ChecksumIsLinear : (8 : Nat) ≤ 16 := by decide
theorem witness_TopPolynomialBitIsImmaterial : (8 : Nat) ≤ 16 ∧ (0x107 : Poly).getLsbD 8 = true ∧
    (0x007 : Poly).getLsbD 8 = false ∧ (0x100 : Poly) &&& 0xFF = 0 := by decide
theorem witness_ZeroMessageGivesSuffix : (8 : Nat) ≤ 16 ∧ (0x00A5#16).toNat < 2 ^ 8 := by decide
theorem witness_AppendedChecksumVerifies : (8 : Nat) ≤ 16 ∧ lowByte (0xAA00#16) = 0 := by decide
theorem witness_SerialFormAgrees : (8 : Nat) ≤ 8 := by decide

/-- A legal engine of nine bits with every table entry in place, in the phase given. -/
def nine (p : Phase) : Engine 9 :=
  { zeroEngine 9 with data := 0x1FF, len := 9, maxerr := 2, phase := p, acc := 0x1FF, pos := 8, base := 0xF8, expected := 0xF9
                      delta := #v[1, 2, 4, 8, 16, 32, 64, 128, 7] }

theorem witness_DividingPhaseTakesDivstep : Legal (nine .cDiv) ∧ (nine .cDiv).phase = .cDiv ∧ (nine .cDiv).pos ≠ 7 :=
  ⟨{ len_le := by decide, data_lt := by decide, resv_iff := by decide, dividing := by decide, searching := by decide,
     filling := by simp [nine], filled := by simp [nine], working := by decide }, rfl, by decide⟩
theorem witness_DividingPhaseEnds : ∀ p : Phase, ({ nine p with pos := 7 } : Engine 9).pos = 7 ∧
    ({ nine p with pos := 7 } : Engine 9).phase = p := by intro p; cases p <;> decide
/-- With a host that does nothing, and with one that offers a word to the busy engine and is ready for a result. -/
theorem witness_CrcCommandComputesChecksum : ∀ l ∈ ([[], [{ acceptAll with cmdValid := true, cmdWord := 0x1000 }]] : List (List Inputs)),
    Legal (stateOf loaded l).engine ∧ loaded.phase = .idle ∧ loaded.err = 0 ∧ 8 ≤ loaded.len.toNat ∧
      HostKeepsOff (loaded.len.toNat - 7) (stateOf loaded l) := by
  intro l hl
  refine ⟨legal_loaded, by decide, by decide, by decide, fun i hi => ?_⟩
  obtain rfl : i = 0 := Nat.lt_one_iff.1 hi
  simp only [List.mem_cons, List.not_mem_nil, or_false] at hl
  rcases hl with rfl | rfl <;> exact ⟨rfl, rfl⟩
theorem witness_DeltaDefinitionsAgree : (8 : Nat) ≤ 9 ∧ (8 : Nat) < 9 := by decide
theorem witness_DeltaValues : (8 : Nat) ≤ 8 ∧ (7 : Nat) < 8 ∧ (9 : Nat) ≤ 9 ∧ lowByte (0x100 : Poly) = 0 ∧ (8 : Nat) < 9 := by
  decide
theorem witness_CombIsLexicographic : (3 : Nat) < 4 ∧ (2 : Nat) ≤ 4 := by decide
theorem witness_SuccessorIsNextCombination : (comb 4 2)[1]? = some [0, 2] ∧ (comb 4 2)[5]? = some [2, 3] := by decide
theorem witness_SynIsFlippedChecksum : (8 : Nat) ≤ 9 ∧ Pattern 9 [0, 8] := ⟨by decide, by decide, by decide⟩
theorem witness_BoundAboveLengthIsLength : (9 : Nat) ≤ 4095 := by decide
theorem witness_SolveReportsExactlyTheMatches : (8 : Nat) ≤ 9 ∧ (0x0FF, 0xFF) ∈ solve (0x1FF#9) 9 0x100 1 0xFF ∧
    crc8 (0x0FF#9) 9 0x100 = 0xFF ∧ weight (0x0FF#9 ^^^ 0x1FF#9) ≤ min 1 9 := by decide
theorem witness_SolveLaws : (8 : Nat) ≤ 16 ∧ crc8 (0xAA5F#16) 16 0x107 = 0 ∧ (11 : Nat) < 16 ∧ (1 : Nat) ≤ 1 := by decide

theorem legal_filling (d : Count) (h : d = 0 ∨ d = 9) :
    Legal { nine .sDelta with di := d, lfsr := if d = 9 then 0x0E else 0x01 } := by
  rcases h with rfl | rfl
  all_goals exact
    { len_le := by decide, data_lt := by decide, resv_iff := by decide, dividing := by simp [nine], searching := by simp [nine],
      filling := by decide, filled := by simp [nine], working := by decide }

theorem witness_DeltaPhaseStep :
    (∃ g : Engine 9, Legal g ∧ g.phase = .sDelta ∧ g.di.toNat < g.len.toNat) ∧
    (∃ g : Engine 9, Legal g ∧ g.phase = .sDelta ∧ g.len.toNat ≤ g.di.toNat) :=
  ⟨⟨_, legal_filling 0 (.inl rfl), rfl, by decide⟩, ⟨_, legal_filling 9 (.inr rfl), rfl, by decide⟩⟩

/-- The engine of `nine` with pattern `(i)`, and with the empty pattern. -/
def tierOne (p : Phase) (i m : Count) : Engine 9 := { nine p with e := 1, maxerr := m, idx := #v[i, 0, 0, 0, 0, 0, 0, 0, 0] }

theorem legal_tierOne (p : Phase) (i m : Count) (hp : p = .sEval ∨ p = .sNext) (hi : i.toNat < 9) (hm : 1 ≤ m.toNat) :
    Legal (tierOne p i m) where
  len_le := by simp [tierOne, nine]
  data_lt := by simp [tierOne, nine]
  resv_iff := by rcases hp with rfl | rfl <;> simp [tierOne, nine, zeroEngine]
  dividing := by rcases hp with rfl | rfl <;> simp [tierOne, nine]
  searching := by intro _; simp [tierOne, nine, patternOf, Pattern, hi, hm]
  filling := by rcases hp with rfl | rfl <;> simp [tierOne, nine]
  filled := by intro _; show ∀ i, i < 9 → _; simp only [tierOne, nine]; decide
  working := by intro _; simp [tierOne, nine, zeroEngine]

theorem witness_EvalStepEvaluatesPattern :
    (∃ g : Engine 9, Legal g ∧ g.phase = .sEval ∧
      ((patternOf g).map fun i => g.delta[i]?.getD 0).foldl (· ^^^ ·) g.base = g.expected) ∧
    (∃ g : Engine 9, Legal g ∧ g.phase = .sEval ∧
      ((patternOf g).map fun i => g.delta[i]?.getD 0).foldl (· ^^^ ·) g.base ≠ g.expected) :=
  ⟨⟨tierOne .sEval 0 2, legal_tierOne _ _ _ (.inl rfl) (by decide) (by decide), rfl, by decide⟩,
    ⟨tierOne .sEval 8 2, legal_tierOne _ _ _ (.inl rfl) (by decide) (by decide), rfl, by decide⟩⟩
theorem witness_NextStepAdvancesPattern :
    (∃ g : Engine 9, Legal g ∧ g.phase = .sNext ∧ (patternOf g)[0]? = some 7 ∧ 7 + g.e.toNat < g.len.toNat + 0) ∧
    (∃ g : Engine 9, Legal g ∧ g.phase = .sNext ∧ patternOf g = [8] ∧ g.e = g.maxerr) ∧
    (∃ g : Engine 9, Legal g ∧ g.phase = .sNext ∧ patternOf g = [8] ∧ g.e ≠ g.maxerr ∧ g.e ≠ g.len) :=
  ⟨⟨tierOne .sNext 7 2, legal_tierOne _ _ _ (.inr rfl) (by decide) (by decide), rfl, by decide, by decide⟩,
    ⟨tierOne .sNext 8 1, legal_tierOne _ _ _ (.inr rfl) (by decide) (by decide), rfl, by decide, by decide⟩,
    ⟨tierOne .sNext 8 2, legal_tierOne _ _ _ (.inr rfl) (by decide) (by decide), rfl, by decide, by decide, by decide⟩⟩

theorem witness_SequencerWritesOnlyItsRegisters :
    (∀ p : Phase, (nine p).phase = p ∧ (nine p).pos ≠ 7) ∧
    (∀ p : Phase, ∃ h, engineStep true (nine p) = .next h) ∧ (∀ p : Phase, ∃ h, engineStep true { nine p with pos := 7 } = .next h) :=
  ⟨by intro p; cases p <;> decide, by intro p; cases p <;> exact ⟨_, rfl⟩, by intro p; cases p <;> exact ⟨_, rfl⟩⟩

/-- `0x1FF` of nine bits, whose checksum is `0xF8`, with bit 0 flipped: the held result of expected `0xF9`. -/
def heldNine : Engine 9 :=
  { nine .sEmit with e := 1, resv := true, cand := 0x1FE, resCw := 0x1FE, resCrc := 0xF9 }

theorem witness_HeldResultIsAMatch : Legal heldNine ∧ Exact heldNine ∧ heldNine.resv = true :=
  ⟨{ len_le := by decide, data_lt := by decide, resv_iff := by decide, dividing := by simp [heldNine, nine]
     searching := fun _ => ⟨by decide, by decide, by decide⟩, filling := by simp [heldNine, nine]
     filled := fun _ => by show ∀ i, i < 9 → _; decide
     working := by decide },
   { dividing := by decide, based := by decide, matched := by decide, verifying := by decide, held := by decide }, rfl⟩

/-- Before the end, at `k = 0`, and at the end, with a host that is always ready. -/
theorem witness_SolveCommandDeliversSolve :
    let r := (solve loaded.data loaded.len.toNat loaded.poly loaded.maxerr.toNat loaded.expected).length
    let k := solveSteps loaded.len.toNat loaded.maxerr.toNat r
    let s := stateOf loaded (List.replicate k acceptAll)
    Legal s.engine ∧ s.engine.phase = .idle ∧ s.engine.err = 0 ∧ 8 ≤ s.engine.len.toNat ∧ HostKeepsOff 0 s ∧ HostKeepsOff k s ∧
      ∃ t, exec .solve s = .next t ∧ 0 < k + waits 0 t ∧ k = k + waits k t ∧ k + waits k t ≤ k :=
  ⟨legal_loaded, by decide, by decide, by decide, hostKeepsOff_acceptAll _ _ _ rfl, hostKeepsOff_acceptAll _ _ _ rfl, _, rfl,
    by simp only [solveSteps]; omega, by rw [waits_acceptAll _ _ rfl]; rfl,
    by rw [waits_acceptAll _ _ rfl]; exact Nat.le_refl _⟩
theorem witness_WorkingRegistersAreInvisible : Legal (stateOf loaded [offer 0x7000]).engine ∧ loaded.phase = .idle ∧
    SameRegisters loaded { loaded with pos := 5, lfsr := 0x77, e := 3 } ∧
    ∃ t, core.run 1 (stateOf loaded [offer 0x7000]) = .next t :=
  ⟨legal_loaded, by decide, ⟨rfl, rfl, rfl, rfl, rfl, rfl, rfl, rfl, rfl, rfl⟩, _, rfl⟩

end Sys2Proof.Tests
end

/-! What one step of the machine does, read forwards, and the micro-steps of the sequencer as a relation with one
constructor a case. -/

namespace Sys2Proof.Machine

/-! ### The machine's step -/

/-- What an accepted word does to the engine: the rule of the command it decodes to, or the error of R168. -/
def wordRule (w : CmdWord) : Engine Config.nmax → Engine Config.nmax :=
  match decode w with
  | .ok i => ruleOf i
  | .error _ => raise .illegalCommand

theorem wordRule_of_ok {w : CmdWord} {i : Instr} (h : decode w = .ok i) : wordRule w = ruleOf i := by
  simp [wordRule, h]

theorem wordRule_of_error {w : CmdWord} {r : IllegalWord} (h : decode w = .error r) :
    wordRule w = raise .illegalCommand := by
  simp [wordRule, h]

/-- What holds of every command's rule and of the rule of an illegal word holds of every word's rule. -/
theorem wordRule_induction {p : (Engine Config.nmax → Engine Config.nmax) → Prop} (w : CmdWord)
    (command : ∀ i, p (ruleOf i)) (illegal : p (raise .illegalCommand)) : p (wordRule w) := by
  cases h : decode w with
  | ok i => rw [wordRule_of_ok h]; exact command i
  | error r => rw [wordRule_of_error h]; exact illegal

theorem accepts_iff (s : State) :
    accepts s = true ↔ resets s = false ∧ (currentInputs s).cmdValid = true ∧ s.engine.phase = .idle := by
  simp [accepts, and_assoc]

theorem step_of_resets {s : State} (h : resets s = true) : step s = .next (resetStep (consumeInputs s)) :=
  if_pos h

theorem step_of_accepts {s : State} (h : accepts s = true) :
    step s = .next (withEngine (consumeInputs s) (wordRule (currentInputs s).cmdWord s.engine)) := by
  obtain ⟨hr, hv, hp⟩ := (accepts_iff s).1 h
  have hrun : step s = commandStep exec (currentInputs s).cmdWord (consumeInputs s) := by
    simp_all [step, cycle, resets]
  rw [hrun, commandStep]
  cases hd : decode (currentInputs s).cmdWord with
  | ok i => simp [exec_eq, offerCommand_idle, hp, wordRule_of_ok hd]
  | error r => simp [illegalCommand, offerCommand_idle, hp, wordRule_of_error hd]

theorem step_of_not_accepts {s : State} (hr : resets s = false) (ha : accepts s = false) :
    step s = if wordChanged s then .refused .commandWordChanged
      else liftEngine (consumeInputs s) (engineStep (currentInputs s).resReady s.engine) := by
  rw [accepts, hr] at ha
  have ha' : ((currentInputs s).cmdValid && cmdReady s.engine) = false := ha
  have hr' : (currentInputs s).rst = false := hr
  simp [step, cycle, hr', ha']

/-- `step_cases` with the two kinds of accepted word in one. -/
theorem step_engine_cases {s t : State} (h : step s = .next t) :
    (resets s = true ∧ t.engine = resetEngine Config.nmax s.draws) ∨
    (accepts s = true ∧ s.engine.phase = .idle ∧ t.engine = wordRule (currentInputs s).cmdWord s.engine) ∨
    (resets s = false ∧ accepts s = false ∧ engineStep (currentInputs s).resReady s.engine = .next t.engine) := by
  rcases step_cases h with ⟨hr, rfl⟩ | ⟨-, ha, hp, ⟨i, hd, rfl⟩ | ⟨r, hd, rfl⟩⟩ | ⟨hr, ha, -, g, hg, rfl⟩
  · exact .inl ⟨hr, by simp⟩
  · exact .inr (.inl ⟨ha, hp, by simp [wordRule_of_ok hd]⟩)
  · exact .inr (.inl ⟨ha, hp, by simp [wordRule_of_error hd]⟩)
  · exact .inr (.inr ⟨hr, ha, by simpa using hg⟩)

/-! ### The sequencer's step -/

/-- The phases in which `DIVSTEP` runs (R42(iii)). -/
@[simp] abbrev Dividing (p : Phase) : Prop := p = .cDiv ∨ p = .sBase ∨ p = .sVerify

/-- Every step an engine can take of its own, `ready` being the level of `res_ready` (R110, R112, R142 to R147, R170,
R195). -/
inductive MicroStep {n : Nat} (ready : Bool) (g : Engine n) : Engine n → Prop where
  | wait (hp : g.phase = .idle) : MicroStep ready g g
  | divide (hp : Dividing g.phase) (hpos : g.pos ≠ 7) (hge : 8 ≤ g.pos.toNat) (hlt : g.pos.toNat < g.len.toNat) :
      MicroStep ready g { g with acc := divideBit g.poly g.pos.toNat g.acc, pos := g.pos - 1 }
  | crcEnds (hp : g.phase = .cDiv) (hpos : g.pos = 7) :
      MicroStep ready g { g with crc := lowByte g.acc, crcv := true, phase := .idle }
  | fill (hp : g.phase = .sDelta) (hlt : g.di.toNat < g.len.toNat) (hn : g.di.toNat < n) :
      MicroStep ready g
        { g with delta := g.delta.set g.di.toNat g.lfsr hn, lfsr := lfsrNext g.lfsr g.poly, di := g.di + 1 }
  | filled (hp : g.phase = .sDelta) (hle : g.len.toNat ≤ g.di.toNat) :
      MicroStep ready g { g with acc := g.data, pos := g.len - 1, phase := .sBase }
  | baseEnds (hp : g.phase = .sBase) (hpos : g.pos = 7) :
      MicroStep ready g { g with base := lowByte g.acc, e := 0, phase := .sEval }
  | evalMatch (d : Checksum) (hp : g.phase = .sEval) (he : g.e.toNat ≤ n)
      (hd : tableSum g.delta (patternOf g) = some d) (hx : g.base ^^^ d = g.expected) :
      MicroStep ready g
        { g with syn := g.base ^^^ d, cand := flipBits g.data (patternOf g), acc := flipBits g.data (patternOf g)
                 pos := g.len - 1, phase := .sVerify }
  | evalMiss (d : Checksum) (hp : g.phase = .sEval) (he : g.e.toNat ≤ n)
      (hd : tableSum g.delta (patternOf g) = some d) (hx : g.base ^^^ d ≠ g.expected) :
      MicroStep ready g { g with syn := g.base ^^^ d, phase := .sNext }
  | verifyEnds (hp : g.phase = .sVerify) (hpos : g.pos = 7) :
      MicroStep ready g { g with resCw := g.cand, resCrc := lowByte g.acc, resv := true, phase := .sEmit }
  | hold (hp : g.phase = .sEmit) (hr : (ready && g.resv) = false) : MicroStep ready g g
  | release (hp : g.phase = .sEmit) (hr : (ready && g.resv) = true) :
      MicroStep ready g { g with resv := false, phase := .sNext }
  | grow (t : List Nat) (hp : g.phase = .sNext) (he : g.e.toNat ≤ n)
      (ht : successor g.len.toNat (patternOf g) = some t) :
      MicroStep ready g { g with idx := storePattern g.idx t, phase := .sEval }
  | searchEnds (hp : g.phase = .sNext) (he : g.e.toNat ≤ n) (ht : successor g.len.toNat (patternOf g) = none)
      (hx : g.e = g.maxerr ∨ g.e = g.len) : MicroStep ready g { g with phase := .idle }
  | nextTier (hp : g.phase = .sNext) (he : g.e.toNat < n) (ht : successor g.len.toNat (patternOf g) = none)
      (hm : g.e ≠ g.maxerr) (hl : g.e ≠ g.len) :
      MicroStep ready g
        { g with e := g.e + 1, idx := storePattern g.idx (List.range (g.e.toNat + 1)), phase := .sEval }

theorem MicroStep.of_divStep {n : Nat} {ready : Bool} {g h : Engine n} (hp : Dividing g.phase) (hpos : g.pos ≠ 7)
    (hd : divStep g = .next h) : MicroStep ready g h := by
  obtain ⟨hge, hlt, rfl⟩ := (divStep_next_iff g h).1 hd
  exact .divide hp hpos hge hlt

theorem microStep_of_engineStep {n : Nat} {ready : Bool} {g h : Engine n} (hs : engineStep ready g = .next h) :
    MicroStep ready g h := by
  unfold engineStep at hs
  cases hp : g.phase <;> simp only [hp] at hs
  case idle => cases hs; exact .wait hp
  case cDiv =>
    rcases (cDivStep_next_iff g h).1 hs with ⟨hpos, hd⟩ | ⟨hpos, rfl⟩
    · exact .of_divStep (.inl hp) hpos hd
    · exact .crcEnds hp hpos
  case sDelta =>
    rcases (sDeltaStep_next_iff g h).1 hs with ⟨hlt, hn, rfl⟩ | ⟨hle, rfl⟩
    · exact .fill hp hlt hn
    · exact .filled hp hle
  case sBase =>
    rcases (sBaseStep_next_iff g h).1 hs with ⟨hpos, hd⟩ | ⟨hpos, rfl⟩
    · exact .of_divStep (.inr (.inl hp)) hpos hd
    · exact .baseEnds hp hpos
  case sEval =>
    obtain ⟨t, d, ht, hd, hcase⟩ := sEvalStep_next hs
    obtain ⟨he, rfl⟩ := currentPattern_some ht
    rcases hcase with ⟨hx, rfl⟩ | ⟨hx, rfl⟩
    · exact .evalMatch d hp he hd hx
    · exact .evalMiss d hp he hd hx
  case sVerify =>
    rcases (sVerifyStep_next_iff g h).1 hs with ⟨hpos, hd⟩ | ⟨hpos, rfl⟩
    · exact .of_divStep (.inr (.inr hp)) hpos hd
    · exact .verifyEnds hp hpos
  case sEmit =>
    cases hs
    unfold sEmitStep
    split
    case isTrue hr => exact .release hp hr
    case isFalse hr => exact .hold hp (by simpa using hr)
  case sNext =>
    obtain ⟨t, ht, hcase⟩ := sNextStep_next hs
    obtain ⟨he, rfl⟩ := currentPattern_some ht
    rcases hcase with ⟨t', ht', rfl⟩ | ⟨ht', hx, rfl⟩ | ⟨ht', hm, hl, hn, rfl⟩
    · exact .grow t' hp he ht'
    · exact .searchEnds hp he ht' hx
    · exact .nextTier hp hn ht' hm hl

theorem engineStep_of_microStep {n : Nat} {ready : Bool} {g h : Engine n} (hs : MicroStep ready g h) :
    engineStep ready g = .next h := by
  cases hs with
  | wait hp => simp [engineStep, hp]
  | divide hp hpos hge hlt =>
    have hd := (divStep_next_iff g _).2 ⟨hge, hlt, rfl⟩
    rcases hp with hp | hp | hp <;> simpa [engineStep, hp, cDivStep, sBaseStep, sVerifyStep, hd] using hpos
  | crcEnds hp hpos => simp [engineStep, hp, cDivStep, hpos]
  | fill hp hlt hn => simp [engineStep, hp, sDeltaStep, hlt, hn]
  | filled hp hle => simp [engineStep, hp, sDeltaStep_next_iff, hle]
  | baseEnds hp hpos => simp [engineStep, hp, sBaseStep, hpos]
  | evalMatch d hp he hd hx => simp [engineStep, hp, sEvalStep, currentPattern_eq g he, hd, hx, loadDivision]
  | evalMiss d hp he hd hx => simp [engineStep, hp, sEvalStep, currentPattern_eq g he, hd, hx]
  | verifyEnds hp hpos => simp [engineStep, hp, sVerifyStep, emit, hpos]
  | hold hp hr => simp [engineStep, hp, sEmitStep, hr]
  | release hp hr => simp [engineStep, hp, sEmitStep, hr, releaseResult]
  | grow t hp he ht => simp [engineStep, hp, sNextStep, currentPattern_eq g he, ht]
  | searchEnds hp he ht hx => simp [engineStep, hp, sNextStep, currentPattern_eq g he, ht, hx]
  | nextTier hp he ht hm hl => simp [engineStep, hp, sNextStep, currentPattern_eq g he.le, ht, hm, hl, he]

theorem engineStep_next_iff {n : Nat} {ready : Bool} {g h : Engine n} :
    engineStep ready g = .next h ↔ MicroStep ready g h :=
  ⟨microStep_of_engineStep, engineStep_of_microStep⟩

end Sys2Proof.Machine

/-! Frames: what a micro-step, a command and a step of the machine leave unchanged (R46), and the obligations that say so. -/

namespace Sys2Proof.Machine

/-! ### The sequencer -/

section
variable {n : Nat} {ready : Bool} {g h : Engine n}

theorem MicroStep.operands_eq (hs : MicroStep ready g h) :
    h.data = g.data ∧ h.len = g.len ∧ h.poly = g.poly ∧ h.maxerr = g.maxerr ∧ h.expected = g.expected ∧
      h.err = g.err := by
  cases hs <;> exact ⟨rfl, rfl, rfl, rfl, rfl, rfl⟩

theorem MicroStep.crc_eq (hs : MicroStep ready g h) (hq : g.phase ≠ .cDiv ∨ g.pos ≠ 7) :
    h.crc = g.crc ∧ h.crcv = g.crcv := by
  cases hs
  case crcEnds hp hpos => simp [hp, hpos] at hq
  all_goals exact ⟨rfl, rfl⟩

theorem MicroStep.result_eq (hs : MicroStep ready g h) (hq : g.phase ≠ .sVerify ∨ g.pos ≠ 7) :
    h.resCw = g.resCw ∧ h.resCrc = g.resCrc ∧ (g.phase ≠ .sEmit → h.resv = g.resv) := by
  cases hs
  case verifyEnds hp hpos => simp [hp, hpos] at hq
  case release hp hr => exact ⟨rfl, rfl, fun hne => absurd hp hne⟩
  all_goals exact ⟨rfl, rfl, fun _ => rfl⟩

theorem MicroStep.acc_eq (hs : MicroStep ready g h) (hq : g.phase = .idle ∨ g.phase = .sEmit ∨ g.phase = .sNext) :
    h.acc = g.acc ∧ h.pos = g.pos := by
  cases hs
  case divide hp _ _ _ => rcases hp with hp | hp | hp <;> simp [hp] at hq
  case filled hp _ => simp [hp] at hq
  case evalMatch hp _ _ _ => simp [hp] at hq
  all_goals exact ⟨rfl, rfl⟩

theorem MicroStep.deltas_eq (hs : MicroStep ready g h) (hq : g.phase ≠ .sDelta) :
    h.lfsr = g.lfsr ∧ h.di = g.di ∧ h.delta = g.delta := by
  cases hs
  case fill hp _ _ => exact absurd hp hq
  all_goals exact ⟨rfl, rfl, rfl⟩

theorem MicroStep.base_eq (hs : MicroStep ready g h) (hq : g.phase ≠ .sBase ∨ g.pos ≠ 7) :
    h.base = g.base ∧ (g.phase ≠ .sNext → h.e = g.e) := by
  cases hs
  case baseEnds hp hpos => simp [hp, hpos] at hq
  case nextTier hp _ _ _ _ => exact ⟨rfl, fun hne => absurd hp hne⟩
  all_goals exact ⟨rfl, fun _ => rfl⟩

theorem MicroStep.idx_eq (hs : MicroStep ready g h) (hq : g.phase ≠ .sNext) : h.idx = g.idx := by
  cases hs
  case grow hp _ _ => exact absurd hp hq
  case nextTier hp _ _ _ _ => exact absurd hp hq
  all_goals rfl

theorem MicroStep.candidate_eq (hs : MicroStep ready g h) (hq : g.phase ≠ .sEval) :
    h.syn = g.syn ∧ h.cand = g.cand := by
  cases hs
  case evalMatch hp _ _ _ => exact absurd hp hq
  case evalMiss hp _ _ _ => exact absurd hp hq
  all_goals exact ⟨rfl, rfl⟩

end

/-- Settles O34: one frame lemma a group of registers, over the cases of a micro-step. -/
theorem sequencerWritesOnlyItsRegisters : Obligations.SequencerWritesOnlyItsRegisters := by
  unfold Obligations.SequencerWritesOnlyItsRegisters
  intro n ready g h hstep
  have hs := microStep_of_engineStep hstep
  obtain ⟨hdata, hlen, hpoly, hmax, hexp, herr⟩ := hs.operands_eq
  exact ⟨hdata, hlen, hpoly, hmax, hexp, herr, hs.crc_eq, hs.result_eq, hs.acc_eq, hs.deltas_eq, hs.base_eq, hs.idx_eq,
    hs.candidate_eq⟩

/-! ### Commands -/

/-- Only `CLR` writes an `ERR` that is not 0 (R183, R188). -/
theorem ruleOf_err_of_ne_zero {i : Instr} {g : Engine Config.nmax} (hi : i ≠ .clr) (he : g.err ≠ 0) :
    (ruleOf i g).err = g.err := by
  cases i with
  | clr => exact absurd rfl hi
  | push b =>
    rcases pushBit_cases b g with ⟨-, h⟩ | ⟨h0, -⟩ | ⟨h0, -⟩
    · simp [ruleOf, h]
    · exact absurd h0 he
    · exact absurd h0 he
  | setpoly p => rfl
  | setmax m => rfl
  | setexp x => rfl
  | crc =>
    rcases startCrc_cases g with ⟨-, h⟩ | ⟨h0, -⟩ | ⟨h0, -⟩
    · simp [ruleOf, h]
    · exact absurd h0 he
    · exact absurd h0 he
  | solve =>
    rcases startSolve_cases g with ⟨-, h⟩ | ⟨h0, -⟩ | ⟨h0, -⟩
    · simp [ruleOf, h]
    · exact absurd h0 he
    · exact absurd h0 he

/-- Settles O20: a busy engine takes no command; an idle one applies the command's rule, and the frame of each rule is what
the laws of the state say of it. -/
theorem commandsWriteOnlyTheirRegisters : Obligations.CommandsWriteOnlyTheirRegisters := by
  unfold Obligations.CommandsWriteOnlyTheirRegisters
  intro i s t hexec
  rw [exec_eq] at hexec
  rcases (offerCommand_next_iff _ _ _).1 hexec with ⟨-, rfl⟩ | ⟨-, rfl⟩
  · have hsticky := @ruleOf_err_of_ne_zero i s.engine
    cases i with
    | clr => simp [ruleOf]
    | push b => simpa [ruleOf] using hsticky
    | setpoly p => simp [ruleOf]
    | setmax m => simp [ruleOf]
    | setexp x => simp [ruleOf]
    | crc => simpa [ruleOf] using hsticky
    | solve => simpa [ruleOf] using hsticky
  · simp

/-! ### Steps of the machine -/

/-- Settles O28: a busy engine that is not reset takes a micro-step, which writes no operand. -/
theorem busyEngineKeepsOperands : Obligations.BusyEngineKeepsOperands := by
  unfold Obligations.BusyEngineKeepsOperands
  intro s t hbusy hr hstep
  rcases step_engine_cases hstep with ⟨hr', -⟩ | ⟨-, hidle, -⟩ | ⟨-, -, hengine⟩
  · simp [hr] at hr'
  · exact absurd hidle hbusy
  · obtain ⟨hdata, hlen, hpoly, hmax, hexp, herr⟩ := (microStep_of_engineStep hengine).operands_eq
    exact ⟨hdata, hlen, hpoly, hmax, hexp, herr, fun hlegal => (hlegal.working hbusy).1⟩

/-- Settles O30: reset and `CLR` clear `ERR`; every other accepted word and every micro-step leaves it, once it is not 0. -/
theorem errIsStickyUntilClrOrReset : Obligations.ErrIsStickyUntilClrOrReset := by
  unfold Obligations.ErrIsStickyUntilClrOrReset
  intro s t he hstep
  rcases step_engine_cases hstep with ⟨hr, ht⟩ | ⟨ha, -, ht⟩ | ⟨-, -, hengine⟩
  · exact .inr (.inl ⟨hr, by simp [ht]⟩)
  · rw [ht]
    cases hd : decode (currentInputs s).cmdWord with
    | error r => exact .inl (by rw [wordRule_of_error hd, raise_of_err _ _ he])
    | ok i =>
      rw [wordRule_of_ok hd]
      by_cases hi : i = .clr
      · subst hi
        exact .inr (.inr ⟨ha, rfl, rfl⟩)
      · exact .inl (ruleOf_err_of_ne_zero hi he)
  · obtain ⟨-, -, -, -, -, herr⟩ := (microStep_of_engineStep hengine).operands_eq
    exact .inl herr

end Sys2Proof.Machine

/-! The invariants of R42: what the operations on values and patterns keep, then each invariant over a micro-step, a command
and a step. -/

namespace Sys2Proof.Machine

/-! ### Counters -/

theorem toNat_pred {c : Count} (h : 0 < c.toNat) : (c - 1).toNat = c.toNat - 1 := by bv_omega

theorem toNat_succ {c : Count} (h : c.toNat < 4095) : (c + 1).toNat = c.toNat + 1 := by bv_omega

/-! ### Values within `LEN` bits -/

theorem divideBit_lt {w len pos : Nat} {P : Poly} {a : BitVec w} (ha : a.toNat < 2 ^ len) (hge : 8 ≤ pos)
    (hlt : pos < len) : (divideBit P pos a).toNat < 2 ^ len := by
  have hshift : (P.setWidth w <<< (pos - 8)).toNat < 2 ^ len := by
    have hP : (P.setWidth w).toNat < 2 ^ 9 := by
      rw [BitVec.toNat_setWidth]; exact (Nat.mod_le _ _).trans_lt P.isLt
    calc (P.setWidth w <<< (pos - 8)).toNat
        ≤ (P.setWidth w).toNat * 2 ^ (pos - 8) := by
          rw [BitVec.toNat_shiftLeft, Nat.shiftLeft_eq]; exact Nat.mod_le _ _
      _ < 2 ^ 9 * 2 ^ (pos - 8) := Nat.mul_lt_mul_of_pos_right hP (Nat.two_pow_pos _)
      _ = 2 ^ (9 + (pos - 8)) := (pow_add _ _ _).symm
      _ ≤ 2 ^ len := Nat.pow_le_pow_right (by decide) (by omega)
  unfold divideBit
  split
  · rw [BitVec.toNat_xor]; exact Nat.xor_lt_two_pow ha hshift
  · exact ha

theorem flipMask_lt {w len : Nat} {t : List Nat} (h : ∀ i ∈ t, i < len) : (flipMask w t).toNat < 2 ^ len := by
  induction t with
  | nil => simp [flipMask]
  | cons i t ih =>
    have hi : (BitVec.twoPow w i).toNat < 2 ^ len := by
      rw [BitVec.toNat_twoPow]
      exact (Nat.mod_le _ _).trans_lt (Nat.pow_lt_pow_right (by decide) (h i (by simp)))
    rw [flipMask, BitVec.toNat_or]
    exact Nat.or_lt_two_pow hi (ih fun j hj => h j (by simp [hj]))

theorem flipBits_lt {w len : Nat} {c : BitVec w} {t : List Nat} (hc : c.toNat < 2 ^ len) (h : ∀ i ∈ t, i < len) :
    (flipBits c t).toNat < 2 ^ len := by
  rw [flipBits, BitVec.toNat_xor]
  exact Nat.xor_lt_two_pow hc (flipMask_lt h)

theorem shiftIn_lt {w len : Nat} {d : BitVec w} (b : BitVec 1) (hd : d.toNat < 2 ^ len) :
    (shiftIn d b).toNat < 2 ^ (len + 1) := by
  have hshift : (d <<< 1).toNat < 2 ^ (len + 1) := by
    rw [BitVec.toNat_shiftLeft, Nat.shiftLeft_eq, pow_succ]
    exact (Nat.mod_le _ _).trans_lt (by omega)
  have hb : (b.setWidth w).toNat < 2 ^ (len + 1) := by
    rw [BitVec.toNat_setWidth]
    exact ((Nat.mod_le _ _).trans_lt b.isLt).trans_le (Nat.pow_le_pow_right (by decide) (by omega))
  rw [shiftIn, BitVec.toNat_or]
  exact Nat.or_lt_two_pow hshift hb

/-! ### Patterns -/

theorem pattern_range {e len : Nat} (h : e ≤ len) : Pattern len (List.range e) :=
  ⟨List.pairwise_lt_range, fun _ hi => (List.mem_range.1 hi).trans_le h⟩

theorem raiseAt_length (t : List Nat) (j : Nat) : (raiseAt t j).length = t.length := by
  unfold raiseAt; split <;> simp

theorem raiseAt_getElem {t : List Nat} {j k : Nat} (hj : j < t.length) (hk : k < (raiseAt t j).length) :
    (raiseAt t j)[k] = if k < j then t[k]'(by simpa [raiseAt_length] using hk) else t[j] + 1 + (k - j) := by
  simp [raiseAt, hj]

theorem growIndex_some {len j : Nat} {t : List Nat} (h : growIndex len t = some j) :
    ∃ hj : j < t.length, t[j] + t.length < len + j := by
  have hj : j < t.length := by simpa using List.mem_of_find?_eq_some h
  have hgrow := List.find?_some h
  exact ⟨hj, by simpa [canGrow, hj] using hgrow⟩

/-- Raising an entry that can still grow keeps the pattern ascending and in range (R147). -/
theorem pattern_raiseAt {len j : Nat} {t : List Nat} (ht : Pattern len t) (hj : j < t.length)
    (hgrow : t[j] + t.length < len + j) : Pattern len (raiseAt t j) := by
  obtain ⟨hasc, hlt⟩ := ht
  rw [List.pairwise_iff_getElem] at hasc
  constructor
  · rw [List.pairwise_iff_getElem]
    intro k l hk hl hkl
    have hll : l < t.length := by simpa [raiseAt_length] using hl
    rw [raiseAt_getElem hj, raiseAt_getElem hj]
    split <;> split
    · exact hasc k l _ _ hkl
    · have := hasc k j (by omega) hj (by omega)
      omega
    · omega
    · omega
  · intro x hx
    obtain ⟨k, hk, rfl⟩ := List.getElem_of_mem hx
    have hkl : k < t.length := by simpa [raiseAt_length] using hk
    rw [raiseAt_getElem hj]
    split
    · exact hlt _ (List.getElem_mem _)
    · omega

theorem successor_some {len : Nat} {t t' : List Nat} (h : successor len t = some t') (ht : Pattern len t) :
    t'.length = t.length ∧ Pattern len t' := by
  obtain ⟨j, hgrow, rfl⟩ := Option.map_eq_some_iff.1 h
  obtain ⟨hj, hlt⟩ := growIndex_some hgrow
  exact ⟨raiseAt_length t j, pattern_raiseAt ht hj hlt⟩

/-- A pattern stored in `IDX` is read back from it (R37, R147). -/
theorem patternOf_eq_of_storePattern {n : Nat} {g : Engine n} {idx : Vector Count n} {t : List Nat}
    (hidx : g.idx = storePattern idx t) (hlen : t.length = g.e.toNat) (hn : g.e.toNat ≤ n) (ht : ∀ i ∈ t, i < 4096) :
    patternOf g = t := by
  apply List.ext_getElem
  · rw [patternOf_length, hlen, min_eq_left hn]
  · intro k hk hk'
    have hkn : k < n := by omega
    have hx : t[k] < 4096 := ht _ (List.getElem_mem _)
    simp only [patternOf, hidx, List.getElem_map, List.getElem_take, Vector.getElem_toList,
      storePattern_getElem _ _ _ hkn, hk', dite_true, BitVec.toNat_ofNat]
    exact Nat.mod_eq_of_lt hx

/-! ### An idle engine -/

/-- In `IDLE` the invariants speak only of the sequence register and of `RESV`. -/
theorem legal_iff_of_idle {n : Nat} {g : Engine n} (hp : g.phase = .idle) :
    Legal g ↔ g.len.toNat ≤ n ∧ g.data.toNat < 2 ^ g.len.toNat ∧ g.resv = false := by
  constructor
  · intro h
    exact ⟨h.len_le, h.data_lt, by simpa [hp] using h.resv_iff⟩
  · rintro ⟨hlen, hdata, hresv⟩
    exact
      { len_le := hlen
        data_lt := hdata
        resv_iff := by simp [hp, hresv]
        dividing := by simp [hp]
        searching := by simp [hp]
        filling := by simp [hp]
        filled := by simp [hp]
        working := by simp [hp] }

theorem exact_of_idle {n : Nat} {g : Engine n} (hp : g.phase = .idle) : Exact g where
  dividing := by simp [hp]
  based := by simp [hp]
  matched := by simp [hp]
  verifying := by simp [hp]
  held := by simp [hp]

theorem legal_resetEngine (n draw : Nat) : Legal (resetEngine n draw) :=
  (legal_iff_of_idle rfl).2 ⟨by simp, by simp, rfl⟩

/-- Settles O25: the machine right after reset is idle with an empty sequence register. -/
theorem resetStateIsLegal : Obligations.ResetStateIsLegal := by
  unfold Obligations.ResetStateIsLegal
  rw [reset_engine]
  exact ⟨legal_resetEngine _ _, exact_of_idle rfl⟩

/-! ### Micro-steps -/

section
variable {n : Nat} {ready : Bool} {g h : Engine n}

theorem Legal.len_ge (hl : Legal g) (hb : g.phase ≠ .idle) : 8 ≤ g.len.toNat := (hl.working hb).2

/-- The start of a division of a value within `LEN` bits meets R42(iii). -/
theorem Legal.loaded (hl : Legal g) (hb : g.phase ≠ .idle) :
    7 ≤ (g.len - 1).toNat ∧ (g.len - 1).toNat < g.len.toNat := by
  have hlen := hl.len_ge hb
  rw [toNat_pred (by omega)]
  omega

theorem MicroStep.resv_iff (hs : MicroStep ready g h) (hl : Legal g) : h.resv = true ↔ h.phase = .sEmit := by
  have hg := hl.resv_iff
  cases hs
  case verifyEnds => simp
  case release => simp
  -- Every other case keeps `RESV`, and neither enters nor leaves `S_EMIT`.
  all_goals simp_all

theorem MicroStep.dividing (hs : MicroStep ready g h) (hl : Legal g) (hp' : Dividing h.phase) :
    7 ≤ h.pos.toNat ∧ h.pos.toNat < h.len.toNat ∧ h.acc.toNat < 2 ^ h.len.toNat := by
  cases hs
  case divide hp hpos hge hlt =>
    obtain ⟨-, -, hacc⟩ := hl.dividing hp
    have hpred := toNat_pred (c := g.pos) (by omega)
    exact ⟨by simp only [hpred]; omega, by simp only [hpred]; omega, divideBit_lt hacc hge hlt⟩
  case filled hp _ =>
    obtain ⟨hge, hlt⟩ := hl.loaded (by simp [hp])
    exact ⟨hge, hlt, hl.data_lt⟩
  case evalMatch hp _ _ _ =>
    obtain ⟨hge, hlt⟩ := hl.loaded (by simp [hp])
    obtain ⟨-, -, hpat⟩ := hl.searching (by simp [hp])
    exact ⟨hge, hlt, flipBits_lt hl.data_lt hpat⟩
  -- No other case ends in a dividing phase.
  all_goals simp_all

/-- The phases in which the search has a current pattern (R42(iv)). -/
@[simp] abbrev Searching (p : Phase) : Prop := p = .sEval ∨ p = .sVerify ∨ p = .sEmit ∨ p = .sNext

/-- The tuple a pattern grows to is a pattern again, and the one `IDX` then holds (R147). -/
theorem Legal.pattern_grow (hl : Legal g) (hp : g.phase = .sNext) {t : List Nat}
    (ht : successor g.len.toNat (patternOf g) = some t) :
    Pattern g.len.toNat t ∧ patternOf { g with idx := storePattern g.idx t, phase := .sEval } = t := by
  obtain ⟨hle, hpat⟩ := hl.searching (by simp [hp])
  have he : g.e.toNat ≤ n := by have := hl.len_le; omega
  obtain ⟨hlen, hpat'⟩ := successor_some ht hpat
  exact ⟨hpat', patternOf_eq_of_storePattern rfl (by simp [hlen, he]) he fun i hi => (hpat'.2 i hi).trans g.len.isLt⟩

/-- Below the bound and below `LEN` there is a next tier, and `IDX` then holds its first tuple (R147). -/
theorem Legal.pattern_nextTier (hl : Legal g) (hp : g.phase = .sNext) (hmax : g.e ≠ g.maxerr) (hlen : g.e ≠ g.len) :
    (g.e + 1).toNat = g.e.toNat + 1 ∧ g.e.toNat + 1 ≤ min g.maxerr.toNat g.len.toNat ∧
      patternOf { g with e := g.e + 1, idx := storePattern g.idx (List.range (g.e.toNat + 1)), phase := .sEval } =
        List.range (g.e.toNat + 1) := by
  obtain ⟨hle, -⟩ := hl.searching (by simp [hp])
  have hn := hl.len_le
  have hmax' := BitVec.toNat_ne.1 hmax
  have hlen' := BitVec.toNat_ne.1 hlen
  have hlenlt := g.len.isLt
  have hsucc := toNat_succ (c := g.e) (by omega)
  refine ⟨hsucc, by omega, patternOf_eq_of_storePattern rfl ?_ ?_ ?_⟩
  · simp only [hsucc, List.length_range]
  · simp only [hsucc]; omega
  · intro i hi
    have := List.mem_range.1 hi
    omega

theorem MicroStep.searching (hs : MicroStep ready g h) (hl : Legal g) (hp' : Searching h.phase) :
    h.e.toNat ≤ min h.maxerr.toNat h.len.toNat ∧ Pattern h.len.toNat (patternOf h) := by
  cases hs
  case baseEnds => simp [patternOf, Pattern]
  case grow t hp he ht =>
    obtain ⟨hpat, heq⟩ := hl.pattern_grow hp ht
    obtain ⟨hle, -⟩ := hl.searching (by simp [hp])
    exact ⟨hle, by rw [heq]; exact hpat⟩
  case nextTier hp he ht hmax hlen =>
    obtain ⟨hsucc, hle, heq⟩ := hl.pattern_nextTier hp hmax hlen
    have hpat : Pattern g.len.toNat (List.range (g.e.toNat + 1)) := pattern_range (by omega)
    exact ⟨by simpa only [hsucc] using hle, by rw [heq]; exact hpat⟩
  -- These three do not end in a phase of the search.
  case fill => simp_all
  case filled => simp_all
  case searchEnds => simp_all
  -- The others go on in the search with the pattern as it is.
  all_goals exact hl.searching (by simp_all)

theorem MicroStep.filling (hs : MicroStep ready g h) (hl : Legal g) (hp' : h.phase = .sDelta) :
    h.di.toNat ≤ h.len.toNat ∧ h.lfsr = deltaGen h.poly h.di.toNat ∧
      ∀ i, i < h.di.toNat → h.delta[i]? = some (deltaGen h.poly i) := by
  cases hs
  case fill hp hlt hn =>
    obtain ⟨-, hlfsr, hdelta⟩ := hl.filling hp
    have hsucc := toNat_succ (c := g.di) (by have := g.len.isLt; omega)
    refine ⟨by simp only [hsucc]; omega, by simp only [hsucc, deltaGen, hlfsr], fun i hi => ?_⟩
    simp only [hsucc] at hi
    by_cases hi' : i = g.di.toNat
    · subst hi'; simp [hlfsr]
    · rw [Vector.getElem?_set_ne hn (Ne.symm hi')]
      exact hdelta i (by omega)
  -- No other case ends in `S_DELTA`.
  all_goals simp_all

/-- The phases of a `SOLVE` after `S_DELTA` (R42(v)). -/
@[simp] abbrev Filled (p : Phase) : Prop := p = .sBase ∨ Searching p

theorem MicroStep.filled_deltas (hs : MicroStep ready g h) (hl : Legal g) (hp' : Filled h.phase) :
    ∀ i, i < h.len.toNat → h.delta[i]? = some (deltaGen h.poly i) := by
  cases hs
  case filled hp hle =>
    obtain ⟨-, -, hdelta⟩ := hl.filling hp
    exact fun i hi => hdelta i (hi.trans_le hle)
  -- These two do not end in a phase after `S_DELTA`.
  case fill => simp_all
  case searchEnds => simp_all
  -- The others leave the table of an earlier step of the same search alone.
  all_goals exact hl.filled (by simp_all)

theorem MicroStep.busy_of_busy (hs : MicroStep ready g h) (hb : h.phase ≠ .idle) : g.phase ≠ .idle := by
  intro hp
  cases hs
  case wait => exact hb hp
  -- No other case starts in `IDLE`.
  all_goals simp_all

/-- A micro-step keeps the invariants of R42. -/
theorem MicroStep.legal (hs : MicroStep ready g h) (hl : Legal g) : Legal h := by
  obtain ⟨hdata, hlen, -, -, -, herr⟩ := hs.operands_eq
  exact
    { len_le := hlen ▸ hl.len_le
      data_lt := hdata ▸ hlen ▸ hl.data_lt
      resv_iff := hs.resv_iff hl
      dividing := hs.dividing hl
      searching := hs.searching hl
      filling := hs.filling hl
      filled := hs.filled_deltas hl
      working := fun hb => by rw [herr, hlen]; exact hl.working (hs.busy_of_busy hb) }

end

/-! ### Commands -/

section
variable {n : Nat} {g : Engine n}

theorem Legal.of_idle_frame (hl : Legal g) (hp : g.phase = .idle) {h : Engine n} (hphase : h.phase = g.phase)
    (hlen : h.len = g.len) (hdata : h.data = g.data) (hresv : h.resv = g.resv) : Legal h := by
  rw [legal_iff_of_idle hp, ← hlen, ← hdata, ← hresv] at hl
  exact (legal_iff_of_idle (hphase.trans hp)).2 hl

theorem legal_raise (hl : Legal g) (hp : g.phase = .idle) (c : Cause) : Legal (raise c g) :=
  hl.of_idle_frame hp (by simp) (by simp) (by simp) (by simp)

theorem legal_clearEngine (hl : Legal g) (hp : g.phase = .idle) : Legal (clearEngine g) := by
  obtain ⟨-, -, hresv⟩ := (legal_iff_of_idle hp).1 hl
  rw [legal_iff_of_idle (by simpa using hp)]
  exact ⟨by simp, by simp, hresv⟩

theorem legal_pushBit (hn : n ≤ 4095) (hl : Legal g) (hp : g.phase = .idle) (b : BitVec 1) : Legal (pushBit b g) := by
  obtain ⟨hlen, hdata, hresv⟩ := (legal_iff_of_idle hp).1 hl
  rcases pushBit_cases b g with ⟨-, h⟩ | ⟨-, -, h⟩ | ⟨-, hne, h⟩ <;> rw [h]
  · exact hl
  · exact hl.of_idle_frame hp rfl rfl rfl rfl
  · have hsucc := toNat_succ (c := g.len) (by omega)
    rw [legal_iff_of_idle (by exact hp)]
    exact ⟨by simp only [hsucc]; omega, by simp only [hsucc]; exact shiftIn_lt b hdata, hresv⟩

theorem legal_startCrc (hl : Legal g) (hp : g.phase = .idle) : Legal (startCrc g) := by
  obtain ⟨hlen, hdata, hresv⟩ := (legal_iff_of_idle hp).1 hl
  rcases startCrc_cases g with ⟨-, h⟩ | ⟨-, -, h⟩ | ⟨herr, h8, h⟩ <;> rw [h]
  · exact hl.of_idle_frame hp rfl rfl rfl rfl
  · exact hl.of_idle_frame hp rfl rfl rfl rfl
  · have hpred := toNat_pred (c := g.len) (by omega)
    exact
      { len_le := hlen
        data_lt := hdata
        resv_iff := by simp [hresv]
        dividing := fun _ => ⟨by simp only [hpred]; omega, by simp only [hpred]; omega, hdata⟩
        searching := by simp
        filling := by simp
        filled := by simp
        working := fun _ => ⟨herr, h8⟩ }

theorem legal_startSolve (hl : Legal g) (hp : g.phase = .idle) : Legal (startSolve g) := by
  obtain ⟨hlen, hdata, hresv⟩ := (legal_iff_of_idle hp).1 hl
  rcases startSolve_cases g with ⟨-, h⟩ | ⟨-, -, h⟩ | ⟨herr, h8, h⟩ <;> rw [h]
  · exact hl
  · exact hl.of_idle_frame hp rfl rfl rfl rfl
  · exact
      { len_le := hlen
        data_lt := hdata
        resv_iff := by simp [hresv]
        dividing := by simp
        searching := by simp
        filling := fun _ => ⟨Nat.zero_le _, rfl, by simp⟩
        filled := by simp
        working := fun _ => ⟨herr, h8⟩ }

end

/-- A command's rule keeps the invariants of R42 of an idle engine. -/
theorem legal_ruleOf {g : Engine Config.nmax} (hl : Legal g) (hp : g.phase = .idle) (i : Instr) : Legal (ruleOf i g) := by
  cases i with
  | clr => exact legal_clearEngine hl hp
  | push b => exact legal_pushBit Laws.nmax_le hl hp b
  | setpoly p => exact hl.of_idle_frame hp rfl rfl rfl rfl
  | setmax m => exact hl.of_idle_frame hp rfl rfl rfl rfl
  | setexp x => exact hl.of_idle_frame hp rfl rfl rfl rfl
  | crc => exact legal_startCrc hl hp
  | solve => exact legal_startSolve hl hp

theorem legal_wordRule {g : Engine Config.nmax} (hl : Legal g) (hp : g.phase = .idle) (w : CmdWord) :
    Legal (wordRule w g) :=
  wordRule_induction (p := fun f => Legal (f g)) w (legal_ruleOf hl hp) (legal_raise hl hp _)

/-! ### Steps of the machine -/

/-- Settles O26: the reset engine is legal, and the rule of an accepted word and every micro-step keep a legal engine legal. -/
theorem stepKeepsLegal : Obligations.StepKeepsLegal := by
  unfold Obligations.StepKeepsLegal
  intro s t hl hstep
  rcases step_engine_cases hstep with ⟨-, ht⟩ | ⟨-, hp, ht⟩ | ⟨-, -, hengine⟩
  · rw [ht]; exact legal_resetEngine _ _
  · rw [ht]; exact legal_wordRule hl hp _
  · exact (microStep_of_engineStep hengine).legal hl

section
variable {n : Nat} {g : Engine n}

/-- A dividing phase of a legal engine either has a `DIVSTEP` left or is at its last step, `POS = 7` (R110). -/
theorem Legal.divide_or_ends (hl : Legal g) (hp : Dividing g.phase) (ready : Bool) :
    (∃ h, MicroStep ready g h) ∨ g.pos = 7 := by
  obtain ⟨hge, hlt, -⟩ := hl.dividing hp
  by_cases hpos : g.pos = 7
  · exact .inr hpos
  · have hne : g.pos.toNat ≠ 7 := BitVec.toNat_ne.1 hpos
    exact .inl ⟨_, .divide hp hpos (by omega) hlt⟩

/-- During the search every table index is in range (R35, R42). -/
theorem Legal.pattern_in_range (hl : Legal g) (hp : Searching g.phase) :
    g.e.toNat ≤ n ∧ ∃ d, tableSum g.delta (patternOf g) = some d := by
  obtain ⟨hle, -, hpat⟩ := hl.searching hp
  have hn := hl.len_le
  exact ⟨by omega, tableSum_isSome _ _ fun i hi => (hpat i hi).trans_le hn⟩

/-- A legal engine always has a step of its own: nothing faults. -/
theorem Legal.exists_microStep (hl : Legal g) (ready : Bool) : ∃ h, MicroStep ready g h := by
  have hn := hl.len_le
  cases hp : g.phase with
  | idle => exact ⟨_, .wait hp⟩
  | cDiv =>
    rcases hl.divide_or_ends (by simp [hp]) ready with h | hpos
    · exact h
    · exact ⟨_, .crcEnds hp hpos⟩
  | sDelta =>
    by_cases hlt : g.di.toNat < g.len.toNat
    · exact ⟨_, .fill hp hlt (by omega)⟩
    · exact ⟨_, .filled hp (by omega)⟩
  | sBase =>
    rcases hl.divide_or_ends (by simp [hp]) ready with h | hpos
    · exact h
    · exact ⟨_, .baseEnds hp hpos⟩
  | sEval =>
    obtain ⟨he, d, hd⟩ := hl.pattern_in_range (by simp [hp])
    by_cases hx : g.base ^^^ d = g.expected
    · exact ⟨_, .evalMatch d hp he hd hx⟩
    · exact ⟨_, .evalMiss d hp he hd hx⟩
  | sVerify =>
    rcases hl.divide_or_ends (by simp [hp]) ready with h | hpos
    · exact h
    · exact ⟨_, .verifyEnds hp hpos⟩
  | sEmit =>
    cases hr : ready && g.resv with
    | true => exact ⟨_, .release hp hr⟩
    | false => exact ⟨_, .hold hp hr⟩
  | sNext =>
    obtain ⟨he, -⟩ := hl.pattern_in_range (by simp [hp])
    cases ht : successor g.len.toNat (patternOf g) with
    | some t => exact ⟨_, .grow t hp he ht⟩
    | none =>
      by_cases hx : g.e = g.maxerr ∨ g.e = g.len
      · exact ⟨_, .searchEnds hp he ht hx⟩
      · obtain ⟨hmax, hlen⟩ := not_or.1 hx
        obtain ⟨-, hle, -⟩ := hl.pattern_nextTier hp hmax hlen
        exact ⟨_, .nextTier hp (by omega) ht hmax hlen⟩

end

/-- Settles O27: a reset and an acceptance always answer, and so does a legal engine's own step; a word changed while it waits
is what is left to refuse. -/
theorem legalStepAnswersNext : Obligations.LegalStepAnswersNext := by
  unfold Obligations.LegalStepAnswersNext
  intro s hl
  by_cases hr : resets s = true
  · exact ⟨fun _ => ⟨_, step_of_resets hr⟩, fun h => by simp [hostKeepsWord, hr] at h⟩
  by_cases ha : accepts s = true
  · exact ⟨fun _ => ⟨_, step_of_accepts ha⟩, fun h => by simp [hostKeepsWord, ha] at h⟩
  rw [Bool.not_eq_true] at hr ha
  rw [step_of_not_accepts hr ha]
  obtain ⟨h, hs⟩ := hl.exists_microStep (currentInputs s).resReady
  rw [engineStep_of_microStep hs]
  cases hw : wordChanged s with
  | true => simp [hostKeepsWord, hr, ha, hw]
  | false => simp [hostKeepsWord, hr, ha, hw, liftEngine]

end Sys2Proof.Machine

/-! The checksum of a flipped codeword (R106, R127, R128), and what a held result is. -/

namespace Sys2Proof.Machine

/-! ### The division scan is linear, and blind to bits above its length -/

theorem divideBit_xor {w : Nat} (P : Poly) (pos : Nat) (a b : BitVec w) :
    divideBit P pos (a ^^^ b) = divideBit P pos a ^^^ divideBit P pos b := by
  simp only [divideBit, BitVec.getLsbD_xor]
  generalize P.setWidth w <<< (pos - 8) = s
  cases a.getLsbD pos <;> cases b.getLsbD pos
  · rfl
  · exact BitVec.xor_assoc a b s
  · show a ^^^ b ^^^ s = a ^^^ s ^^^ b
    rw [BitVec.xor_assoc, BitVec.xor_comm b, ← BitVec.xor_assoc]
  · show a ^^^ b = a ^^^ s ^^^ (b ^^^ s)
    rw [BitVec.xor_comm b, BitVec.xor_assoc, ← BitVec.xor_assoc s, BitVec.xor_self, BitVec.zero_xor]

theorem divideFrom_xor {w : Nat} (P : Poly) (k : Nat) (a b : BitVec w) :
    divideFrom P k (a ^^^ b) = divideFrom P k a ^^^ divideFrom P k b := by
  induction k generalizing a b with
  | zero => rfl
  | succ k ih => rw [divideFrom, divideBit_xor, ih]; rfl

theorem crc8_xor {w : Nat} (a b : BitVec w) (len : Nat) (P : Poly) :
    crc8 (a ^^^ b) len P = crc8 a len P ^^^ crc8 b len P := by
  rw [crc8, divide, divideFrom_xor]
  exact BitVec.setWidth_xor

theorem crc8_zero (w len : Nat) (P : Poly) : crc8 (0 : BitVec w) len P = 0 := by
  have h := crc8_xor (0 : BitVec w) 0 len P
  rwa [BitVec.xor_self, BitVec.xor_self] at h

theorem setWidth_divideBit {w len pos : Nat} (hw : len ≤ w) (P : Poly) (hpos : pos < len) (a : BitVec w) :
    (divideBit P pos a).setWidth len = divideBit P pos (a.setWidth len) := by
  unfold divideBit
  have hbit : (a.setWidth len).getLsbD pos = a.getLsbD pos := by simp [hpos]
  rw [hbit]
  split
  · rw [BitVec.setWidth_xor, BitVec.setWidth_shiftLeft_of_le hw, BitVec.setWidth_setWidth_of_le _ hw]
  · rfl

theorem setWidth_divideFrom {w len k : Nat} (hw : len ≤ w) (P : Poly) (hk : k + 7 < len) (a : BitVec w) :
    (divideFrom P k a).setWidth len = divideFrom P k (a.setWidth len) := by
  induction k generalizing a with
  | zero => rfl
  | succ k ih => rw [divideFrom, ih (by omega), setWidth_divideBit hw P (by omega)]; rfl

/-- A checksum sees only the bits below the length (R107). -/
theorem crc8_setWidth {w len : Nat} (hw : len ≤ w) (hlen : 8 ≤ len) (P : Poly) (a : BitVec w) :
    crc8 (a.setWidth len) len P = crc8 a len P := by
  rw [crc8, divide, ← setWidth_divideFrom hw P (by omega)]
  ext i hi
  simp [lowByte, crc8, divide]
  omega

theorem setWidth_twoPow {w len i : Nat} (hw : len ≤ w) : (BitVec.twoPow w i).setWidth len = BitVec.twoPow len i := by
  ext j hj
  have hjw : j < w := hj.trans_le hw
  by_cases hij : i = j
  · subst hij; simp [hjw]
  · simp [hij, Ne.symm hij, BitVec.getLsbD_twoPow]

/-! ### Flipped bits -/

theorem getLsbD_flipMask {w k : Nat} (t : List Nat) (hk : k < w) : (flipMask w t).getLsbD k = decide (k ∈ t) := by
  induction t with
  | nil => simp [flipMask]
  | cons i t ih => rw [flipMask, BitVec.getLsbD_or, ih]; simp [hk]

/-- Flipping a position not flipped yet adds to the mask (R127). -/
theorem flipMask_cons_of_not_mem {w i : Nat} {t : List Nat} (hi : i ∉ t) :
    flipMask w (i :: t) = BitVec.twoPow w i ^^^ flipMask w t := by
  rw [flipMask]
  ext k hk
  have hmem : (flipMask w t)[k] = decide (k ∈ t) := getLsbD_flipMask t hk
  by_cases hki : k = i
  · subst hki; simp [hmem, hi]
  · simp [hki]

/-- The checksum of a flip mask is the exclusive-or of the deltas of its positions (R127). -/
theorem crc8_flipMask {w len : Nat} (hw : len ≤ w) (hlen : 8 ≤ len) (P : Poly) {t : List Nat} (ht : t.Nodup) :
    crc8 (flipMask w t) len P = deltaSum len P t := by
  induction t with
  | nil => exact crc8_zero w len P
  | cons i t ih =>
    obtain ⟨hi, ht⟩ := List.nodup_cons.1 ht
    rw [flipMask_cons_of_not_mem hi, crc8_xor, ih ht, ← crc8_setWidth hw hlen, setWidth_twoPow hw]
    rfl

theorem Pattern.nodup {len : Nat} {t : List Nat} (ht : Pattern len t) : t.Nodup := ht.1.imp Nat.ne_of_lt

/-- The evaluation of a pattern is the checksum of the codeword with its bits flipped (R127), whatever the register's
width. -/
theorem crc8_flipBits {w len : Nat} (hw : len ≤ w) (hlen : 8 ≤ len) (P : Poly) (c : BitVec w) {t : List Nat}
    (ht : Pattern len t) : crc8 (flipBits c t) len P = syn len (crc8 c len P) t P := by
  rw [flipBits, crc8_xor, crc8_flipMask hw hlen P ht.nodup, syn]

/-- A mask of `e` positions has weight `e`. -/
theorem weight_flipMask {w : Nat} {t : List Nat} (ht : Pattern w t) : weight (flipMask w t) = t.length := by
  refine List.Perm.length_eq ((List.perm_ext_iff_of_nodup (List.nodup_range.filter _) ht.nodup).2 fun k => ?_)
  rw [List.mem_filter, List.mem_range]
  constructor
  · rintro ⟨hk, hbit⟩
    simpa [getLsbD_flipMask t hk] using hbit
  · intro hmem
    have hk := ht.2 k hmem
    exact ⟨hk, by simpa [getLsbD_flipMask t hk] using hmem⟩

theorem flipBits_xor_self {w : Nat} (c : BitVec w) (t : List Nat) : flipBits c t ^^^ c = flipMask w t := by
  rw [flipBits, BitVec.xor_comm c, BitVec.xor_assoc, BitVec.xor_self, BitVec.xor_zero]

/-- Settles O55: a result is held in `S_EMIT` only, where it is the candidate, whose checksum is the evaluation that met
`EXPECTED`. -/
theorem heldResultIsAMatch : Obligations.HeldResultIsAMatch := by
  unfold Obligations.HeldResultIsAMatch
  intro n g hl hx hresv
  have hp : g.phase = .sEmit := hl.resv_iff.1 hresv
  obtain ⟨hcw, hcrc⟩ := hx.held hp
  obtain ⟨hcand, hsyn⟩ := hx.matched (.inr hp)
  have hbase := hx.based (by simp [hp])
  obtain ⟨hle, hpat⟩ := hl.searching (by simp [hp])
  have hn := hl.len_le
  have hres : g.resCw = flipBits g.data (patternOf g) := hcw.trans hcand
  refine ⟨hres, ?_, by rw [hcrc, hcw], ?_, ?_, hle⟩
  · rw [hres]; exact flipBits_lt hl.data_lt hpat.2
  · rw [hcrc, hcand, crc8_flipBits hn (hl.len_ge (by simp [hp])) _ _ hpat, ← hbase, hsyn]
  · rw [hres, flipBits_xor_self, weight_flipMask ⟨hpat.1, fun i hi => (hpat.2 i hi).trans_le hn⟩, patternOf_length]
    omega

end Sys2Proof.Machine

/-! Noninterference (R43, R62): two engines that differ only in working registers no later step reads cannot be told apart by
the host. -/

namespace Sys2Proof.Machine

/-! ### What a phase still reads -/

/-- The same base checksum, tier and pattern: what the rest of a search depends on (R33, R36, R37). -/
def SameSearch {n : Nat} (a b : Engine n) : Prop := a.base = b.base ∧ a.e = b.e ∧ patternOf a = patternOf b

/-- The same division in progress (R31, R32). -/
def SameDivision {n : Nat} (a b : Engine n) : Prop := a.acc = b.acc ∧ a.pos = b.pos

/-- The working registers a phase or a later one reads before writing them, but for `LFSR` and `DELTA`, which R42(v) fixes. -/
def LiveAgree {n : Nat} (a b : Engine n) : Phase → Prop
  | .idle => True
  | .cDiv => SameDivision a b
  | .sDelta => a.di = b.di
  | .sBase => SameDivision a b
  | .sEval => SameSearch a b
  | .sVerify => SameDivision a b ∧ a.cand = b.cand ∧ SameSearch a b
  | .sEmit => a.resCw = b.resCw ∧ a.resCrc = b.resCrc ∧ SameSearch a b
  | .sNext => SameSearch a b

/-- Two engines that go on alike. -/
structure Alike {n : Nat} (a b : Engine n) : Prop where
  same : SameRegisters a b
  live : LiveAgree a b a.phase

section
variable {n : Nat} {a b : Engine n}

theorem SameRegisters.phase_eq (h : SameRegisters a b) : a.phase = b.phase := by
  obtain ⟨-, -, -, -, -, -, -, -, -, hphase⟩ := h
  exact hphase

theorem SameRegisters.resv_eq (h : SameRegisters a b) : a.resv = b.resv := by
  obtain ⟨-, -, -, -, -, -, -, -, hresv, -⟩ := h
  exact hresv

/-- Both engines enter the same phase. -/
theorem SameRegisters.enter (h : SameRegisters a b) (p : Phase) :
    SameRegisters { a with phase := p } { b with phase := p } := by
  obtain ⟨hdata, hlen, hpoly, hmax, hexp, hcrc, hcrcv, herr, hresv, -⟩ := h
  exact ⟨hdata, hlen, hpoly, hmax, hexp, hcrc, hcrcv, herr, hresv, rfl⟩

theorem SameRegisters.raise (h : SameRegisters a b) (c : Cause) : SameRegisters (raise c a) (raise c b) := by
  obtain ⟨hdata, hlen, hpoly, hmax, hexp, hcrc, hcrcv, herr, hresv, hphase⟩ := h
  simp [SameRegisters, hdata, hlen, hpoly, hmax, hexp, hcrc, hcrcv, herr, hresv, hphase]

/-- In `IDLE` no working register is read. -/
theorem alike_of_idle (h : SameRegisters a b) (hp : a.phase = .idle) : Alike a b :=
  ⟨h, by rw [hp]; trivial⟩

theorem Alike.live_at (h : Alike a b) {p : Phase} (hp : a.phase = p) : LiveAgree a b p := hp ▸ h.live

theorem Alike.division (h : Alike a b) (hp : Dividing a.phase) : SameDivision a b := by
  rcases hp with hp | hp | hp
  · exact h.live_at hp
  · exact h.live_at hp
  · exact (h.live_at hp).1

theorem Alike.search (h : Alike a b) (hp : Searching a.phase) : SameSearch a b := by
  rcases hp with hp | hp | hp | hp
  · exact h.live_at hp
  · exact (h.live_at hp).2.2
  · exact (h.live_at hp).2.2
  · exact h.live_at hp

theorem Alike.result (h : Alike a b) (hp : a.phase = .sEmit) : a.resCw = b.resCw ∧ a.resCrc = b.resCrc := by
  obtain ⟨hcw, hk, -⟩ := h.live_at hp
  exact ⟨hcw, hk⟩

/-- An idle engine is legal by its registers of classes (a) and (b) alone. -/
theorem SameRegisters.legal (h : SameRegisters a b) (hp : a.phase = .idle) (hl : Legal a) : Legal b := by
  obtain ⟨hdata, hlen, -, -, -, -, -, -, hresv, hphase⟩ := h
  rw [legal_iff_of_idle hp, hdata, hlen, hresv] at hl
  exact (legal_iff_of_idle (hphase ▸ hp)).2 hl

/-! ### Commands -/

theorem SameRegisters.gated_eq (h : SameRegisters a b) : gated a = gated b := by
  obtain ⟨-, -, -, -, -, -, -, herr, -, -⟩ := h
  rw [gated, herr, gated]

theorem SameRegisters.pushBit (h : SameRegisters a b) (bit : BitVec 1) :
    SameRegisters (pushBit bit a) (pushBit bit b) := by
  have hraise := h.raise .lengthOverflow
  have hgated := h.gated_eq
  have hsame := h
  obtain ⟨hdata, hlen, hpoly, hmax, hexp, hcrc, hcrcv, herr, hresv, hphase⟩ := h
  simp only [Machine.pushBit, hgated, hlen]
  split_ifs
  · exact hsame
  · exact hraise
  · exact ⟨by simp only [hdata], rfl, hpoly, hmax, hexp, hcrc, hcrcv, herr, hresv, hphase⟩

theorem SameRegisters.clearEngine (h : SameRegisters a b) : SameRegisters (clearEngine a) (clearEngine b) :=
  ⟨rfl, rfl, rfl, rfl, rfl, rfl, rfl, rfl, h.resv_eq, h.phase_eq⟩

theorem SameRegisters.len_eq (h : SameRegisters a b) : a.len.toNat = b.len.toNat := by
  obtain ⟨-, hlen, -⟩ := h
  rw [hlen]

theorem alike_startCrc (h : SameRegisters a b) (hp : a.phase = .idle) : Alike (startCrc a) (startCrc b) := by
  have hgated := h.gated_eq
  have hlen' := h.len_eq
  obtain ⟨hdata, hlen, hpoly, hmax, hexp, hcrc, -, herr, hresv, hphase⟩ := h
  have hcleared : SameRegisters { a with crcv := false } { b with crcv := false } :=
    ⟨hdata, hlen, hpoly, hmax, hexp, hcrc, rfl, herr, hresv, hphase⟩
  simp only [startCrc, hgated, hlen']
  split_ifs
  · exact alike_of_idle hcleared hp
  · exact alike_of_idle (hcleared.raise _) (by simpa using hp)
  · exact ⟨hcleared.enter .cDiv, hdata, congrArg (· - 1) hlen⟩

theorem alike_startSolve (h : SameRegisters a b) (hp : a.phase = .idle) : Alike (startSolve a) (startSolve b) := by
  simp only [startSolve, h.gated_eq, h.len_eq]
  split_ifs
  · exact alike_of_idle h hp
  · exact alike_of_idle (h.raise _) (by simpa using hp)
  · exact ⟨h.enter .sDelta, rfl⟩

end

theorem alike_ruleOf {a b : Engine Config.nmax} (h : SameRegisters a b) (hp : a.phase = .idle) (i : Instr) :
    Alike (ruleOf i a) (ruleOf i b) := by
  cases i with
  | clr => exact alike_of_idle h.clearEngine (by simpa [ruleOf] using hp)
  | push bit => exact alike_of_idle (h.pushBit bit) (by simpa [ruleOf] using hp)
  | setpoly p =>
    obtain ⟨hdata, hlen, -, hrest⟩ := h
    exact alike_of_idle ⟨hdata, hlen, rfl, hrest⟩ hp
  | setmax m =>
    obtain ⟨hdata, hlen, hpoly, -, hrest⟩ := h
    exact alike_of_idle ⟨hdata, hlen, hpoly, rfl, hrest⟩ hp
  | setexp x =>
    obtain ⟨hdata, hlen, hpoly, hmax, -, hrest⟩ := h
    exact alike_of_idle ⟨hdata, hlen, hpoly, hmax, rfl, hrest⟩ hp
  | crc => exact alike_startCrc h hp
  | solve => exact alike_startSolve h hp

theorem alike_wordRule {a b : Engine Config.nmax} (h : SameRegisters a b) (hp : a.phase = .idle) (w : CmdWord) :
    Alike (wordRule w a) (wordRule w b) :=
  wordRule_induction (p := fun f => Alike (f a) (f b)) w (alike_ruleOf h hp)
    (alike_of_idle (h.raise _) (by simpa using hp))

/-! ### Micro-steps -/

theorem tableSum_congr {n : Nat} {u v : Vector Checksum n} {t : List Nat} (h : ∀ i ∈ t, u[i]? = v[i]?) :
    tableSum u t = tableSum v t := by
  induction t with
  | nil => rfl
  | cons i t ih => rw [tableSum, tableSum, h i (by simp), ih fun j hj => h j (by simp [hj])]

section
variable {n : Nat} {ready : Bool} {a b : Engine n}

/-- The tables of two legal engines agree below `LEN` (R42(v)), so a pattern has one sum in both. -/
theorem Alike.tableSum_eq (h : Alike a b) (ha : Legal a) (hb : Legal b) (hp : Searching a.phase) :
    tableSum b.delta (patternOf b) = tableSum a.delta (patternOf a) := by
  obtain ⟨-, -, hpat⟩ := h.search hp
  obtain ⟨-, hlen, hpoly, -, -, -, -, -, -, hphase⟩ := h.same
  obtain ⟨-, -, hlt⟩ := ha.searching hp
  rw [← hpat]
  refine tableSum_congr fun i hi => ?_
  rw [ha.filled (.inr hp) i (hlt i hi), hb.filled (.inr (hphase ▸ hp)) i (hlen ▸ hlt i hi), hpoly]

/-- What one of two like engines does, the other does, and they stay alike. -/
theorem Alike.microStep (h : Alike a b) (ha : Legal a) (hb : Legal b) {a' : Engine n} (hs : MicroStep ready a a') :
    ∃ b', MicroStep ready b b' ∧ Alike a' b' := by
  have hsame := h.same
  obtain ⟨hdata, hlen, hpoly, hmax, hexp, hcrc, hcrcv, herr, hresv, hphase⟩ := h.same
  cases hs with
  | wait hp => exact ⟨b, .wait (hphase ▸ hp), h⟩
  | divide hp hpos hge hlt =>
    obtain ⟨hacc, hpos'⟩ := h.division hp
    refine ⟨_, .divide (hphase ▸ hp) (hpos' ▸ hpos) (hpos' ▸ hge) (hpos' ▸ hlen ▸ hlt), hsame, ?_⟩
    have hdiv : divideBit a.poly a.pos.toNat a.acc = divideBit b.poly b.pos.toNat b.acc ∧ a.pos - 1 = b.pos - 1 := by
      rw [hpoly, hacc, hpos']; exact ⟨rfl, rfl⟩
    rcases hp with hp | hp | hp <;> simp only [hp]
    · exact hdiv
    · exact hdiv
    · exact ⟨hdiv, (h.live_at hp).2⟩
  | crcEnds hp hpos =>
    obtain ⟨hacc, hpos'⟩ := h.division (.inl hp)
    exact ⟨_, .crcEnds (hphase ▸ hp) (hpos' ▸ hpos),
      ⟨hdata, hlen, hpoly, hmax, hexp, congrArg lowByte hacc, rfl, herr, hresv, rfl⟩, trivial⟩
  | fill hp hlt hn =>
    have hdi : a.di = b.di := h.live_at hp
    refine ⟨_, .fill (hphase ▸ hp) (hdi ▸ hlen ▸ hlt) (hdi ▸ hn), hsame, ?_⟩
    simp only [hp]
    exact congrArg (· + 1) hdi
  | filled hp hle =>
    have hdi : a.di = b.di := h.live_at hp
    exact ⟨_, .filled (hphase ▸ hp) (hdi ▸ hlen ▸ hle), hsame.enter .sBase, hdata, congrArg (· - 1) hlen⟩
  | baseEnds hp hpos =>
    obtain ⟨hacc, hpos'⟩ := h.division (.inr (.inl hp))
    exact ⟨_, .baseEnds (hphase ▸ hp) (hpos' ▸ hpos), hsame.enter .sEval, congrArg lowByte hacc, rfl,
      by simp [patternOf]⟩
  | evalMatch d hp he hd hx =>
    have hsum := h.tableSum_eq ha hb (.inl hp)
    obtain ⟨hbase, he', hpat⟩ := h.search (.inl hp)
    have hcand : flipBits a.data (patternOf a) = flipBits b.data (patternOf b) := by rw [hdata, hpat]
    exact ⟨_, .evalMatch d (hphase ▸ hp) (he' ▸ he) (hsum.trans hd) (by rw [← hbase, ← hexp]; exact hx),
      hsame.enter .sVerify, ⟨hcand, congrArg (· - 1) hlen⟩, hcand, hbase, he', hpat⟩
  | evalMiss d hp he hd hx =>
    have hsum := h.tableSum_eq ha hb (.inl hp)
    obtain ⟨hbase, he', hpat⟩ := h.search (.inl hp)
    exact ⟨_, .evalMiss d (hphase ▸ hp) (he' ▸ he) (hsum.trans hd) (by rw [← hbase, ← hexp]; exact hx),
      hsame.enter .sNext, hbase, he', hpat⟩
  | verifyEnds hp hpos =>
    obtain ⟨hacc, hpos'⟩ := h.division (.inr (.inr hp))
    obtain ⟨-, hcand, hsearch⟩ := h.live_at hp
    exact ⟨_, .verifyEnds (hphase ▸ hp) (hpos' ▸ hpos),
      ⟨hdata, hlen, hpoly, hmax, hexp, hcrc, hcrcv, herr, rfl, rfl⟩, hcand, congrArg lowByte hacc, hsearch⟩
  | hold hp hr => exact ⟨b, .hold (hphase ▸ hp) (hresv ▸ hr), h⟩
  | release hp hr =>
    exact ⟨_, .release (hphase ▸ hp) (hresv ▸ hr),
      ⟨hdata, hlen, hpoly, hmax, hexp, hcrc, hcrcv, herr, rfl, rfl⟩, h.search (.inr (.inr (.inl hp)))⟩
  | grow t hp he ht =>
    obtain ⟨hbase, he', hpat⟩ := h.search (.inr (.inr (.inr hp)))
    have htb : successor b.len.toNat (patternOf b) = some t := by rw [← hlen, ← hpat]; exact ht
    obtain ⟨-, heqa⟩ := ha.pattern_grow hp ht
    obtain ⟨-, heqb⟩ := hb.pattern_grow (hphase ▸ hp) htb
    exact ⟨_, .grow t (hphase ▸ hp) (he' ▸ he) htb, hsame.enter .sEval, hbase, he', heqa.trans heqb.symm⟩
  | searchEnds hp he ht hx =>
    obtain ⟨hbase, he', hpat⟩ := h.search (.inr (.inr (.inr hp)))
    exact ⟨_, .searchEnds (hphase ▸ hp) (he' ▸ he) (by rw [← hlen, ← hpat]; exact ht)
      (by rw [← he', ← hmax, ← hlen]; exact hx), hsame.enter .idle, trivial⟩
  | nextTier hp he ht hm hl =>
    obtain ⟨hbase, he', hpat⟩ := h.search (.inr (.inr (.inr hp)))
    have hmb : b.e ≠ b.maxerr := by rw [← he', ← hmax]; exact hm
    have hlb : b.e ≠ b.len := by rw [← he', ← hlen]; exact hl
    obtain ⟨-, -, heqa⟩ := ha.pattern_nextTier hp hm hl
    obtain ⟨-, -, heqb⟩ := hb.pattern_nextTier (hphase ▸ hp) hmb hlb
    exact ⟨_, .nextTier (hphase ▸ hp) (he' ▸ he) (by rw [← hlen, ← hpat]; exact ht) hmb hlb, hsame.enter .sEval, hbase,
      congrArg (· + 1) he', heqa.trans ((congrArg (fun c : Count => List.range (c.toNat + 1)) he').trans heqb.symm)⟩

end

/-! ### What the host sees -/

/-- Two legal machines under the same host whose engines go on alike. -/
structure Indistinguishable (s t : State) : Prop where
  legal_left : Legal s.engine
  legal_right : Legal t.engine
  inputs_eq : s.inputs = t.inputs
  alike : Alike s.engine t.engine

section
variable {s t : State}

theorem Indistinguishable.currentInputs_eq (h : Indistinguishable s t) : currentInputs s = currentInputs t :=
  congrArg (List.headD · Inputs.quiet) h.inputs_eq

theorem Indistinguishable.resets_eq (h : Indistinguishable s t) : resets s = resets t :=
  congrArg Inputs.rst h.currentInputs_eq

theorem Indistinguishable.accepts_eq (h : Indistinguishable s t) : accepts s = accepts t := by
  simp only [accepts, h.resets_eq, h.currentInputs_eq, cmdReady, h.alike.same.phase_eq]

theorem Indistinguishable.wordChanged_eq (h : Indistinguishable s t) : wordChanged s = wordChanged t := by
  simp only [wordChanged, h.inputs_eq]

/-- The host sees the same output ports (R29, R206). -/
theorem Indistinguishable.visible_eq (h : Indistinguishable s t) : visible s.engine = visible t.engine := by
  have hresult := h.alike.result
  obtain ⟨-, hlen, -, -, -, hcrc, hcrcv, herr, hresv, hphase⟩ := h.alike.same
  cases hr : s.engine.resv with
  | false => simp [visible, outputs, cmdReady, busy, ← hresv, hr, hlen, hcrc, hcrcv, herr, hphase]
  | true =>
    obtain ⟨hcw, hk⟩ := hresult (h.legal_left.resv_iff.1 hr)
    simp [visible, outputs, cmdReady, busy, ← hresv, hr, hlen, hcrc, hcrcv, herr, hphase, hcw, hk]

/-- The host takes the same result, if it takes one (R170). -/
theorem Indistinguishable.accepted_eq (h : Indistinguishable s t) : accepted s = accepted t := by
  have hphase := h.alike.same.phase_eq
  simp only [accepted, ← h.resets_eq, ← h.currentInputs_eq, ← hphase, ← h.alike.same.resv_eq]
  split_ifs with hx
  · obtain ⟨hcw, hk⟩ := h.alike.result hx.1
    rw [hcw, hk]
  · rfl

theorem Indistinguishable.exists_alike_step (h : Indistinguishable s t) {s' : State} (hs : step s = .next s') :
    ∃ t', step t = .next t' ∧ Alike s'.engine t'.engine := by
  rcases step_cases hs with ⟨hr, rfl⟩ | ⟨-, ha, hp, -⟩ | ⟨hr, ha, hw, g, hg, rfl⟩
  · exact ⟨_, step_of_resets (h.resets_eq ▸ hr),
      alike_of_idle ⟨rfl, rfl, rfl, rfl, rfl, rfl, rfl, rfl, rfl, rfl⟩ rfl⟩
  · rw [step_of_accepts ha] at hs
    obtain rfl := Host.Outcome.next.inj hs
    refine ⟨_, step_of_accepts (h.accepts_eq ▸ ha), ?_⟩
    rw [withEngine_engine, withEngine_engine, ← h.currentInputs_eq]
    exact alike_wordRule h.alike.same hp _
  · obtain ⟨g', hg', halike⟩ := h.alike.microStep h.legal_left h.legal_right (microStep_of_engineStep hg)
    refine ⟨withEngine (consumeInputs t) g', ?_, halike⟩
    rw [step_of_not_accepts (h.resets_eq ▸ hr) (h.accepts_eq ▸ ha), ← h.wordChanged_eq, hw, ← h.currentInputs_eq,
      engineStep_of_microStep hg']
    rfl

/-- What one of two indistinguishable machines does, the other does, and they stay so. -/
theorem Indistinguishable.exists_step (h : Indistinguishable s t) {s' : State} (hs : step s = .next s') :
    ∃ t', step t = .next t' ∧ Indistinguishable s' t' := by
  obtain ⟨t', ht, halike⟩ := h.exists_alike_step hs
  exact ⟨t', ht,
    { legal_left := stepKeepsLegal s s' h.legal_left hs
      legal_right := stepKeepsLegal t t' h.legal_right ht
      inputs_eq := by rw [step_inputs hs, step_inputs ht, h.inputs_eq]
      alike := halike }⟩

end

theorem run_succ_of_next {k : Nat} {s u : State} (hs : step s = .next u) : core.run (k + 1) s = core.run k u := by
  have hs' : core.step s = .next u := hs
  simp only [Host.Core.run, hs']

theorem exists_step_of_run_succ {k : Nat} {s s' : State} (hrun : core.run (k + 1) s = .next s') :
    ∃ u, step s = .next u ∧ core.run k u = .next s' := by
  simp only [Host.Core.run] at hrun
  cases hs : core.step s with
  | next u => exact ⟨u, hs, by rwa [hs] at hrun⟩
  | fault r => simp [hs] at hrun
  | refused r => simp [hs] at hrun

theorem trace_succ_of_next {k : Nat} {s u : State} (hs : step s = .next u) :
    trace (k + 1) s = (accepted s).toList ++ trace k u := by
  rw [trace, hs]

theorem Indistinguishable.run {k : Nat} {s t s' : State} (h : Indistinguishable s t) (hrun : core.run k s = .next s') :
    ∃ t', core.run k t = .next t' ∧ Indistinguishable s' t' ∧ trace k s = trace k t := by
  induction k generalizing s t with
  | zero =>
    obtain rfl : s = s' := Host.Outcome.next.inj hrun
    exact ⟨t, rfl, h, rfl⟩
  | succ k ih =>
    obtain ⟨u, hs, hu⟩ := exists_step_of_run_succ hrun
    obtain ⟨v, ht, huv⟩ := h.exists_step hs
    obtain ⟨t', hv, hfinal, htrace⟩ := ih huv hu
    refine ⟨t', by rw [run_succ_of_next ht, hv], hfinal, ?_⟩
    rw [trace_succ_of_next hs, trace_succ_of_next ht, h.accepted_eq, htrace]

/-- Settles O57: two idle engines with the same registers of classes (a) and (b) are indistinguishable, and stay so whatever
the host does. -/
theorem workingRegistersAreInvisible : Obligations.WorkingRegistersAreInvisible := by
  unfold Obligations.WorkingRegistersAreInvisible
  intro s t hl hp hsame hinputs k s' hrun
  have h : Indistinguishable s t :=
    { legal_left := hl
      legal_right := hsame.legal hp hl
      inputs_eq := hinputs
      alike := alike_of_idle hsame hp }
  obtain ⟨t', ht, hfinal, htrace⟩ := h.run hrun
  exact ⟨t', ht, hfinal.visible_eq, htrace⟩

end Sys2Proof.Machine

/-! Pushing a sequence of bits (R52, R162): one push that fits doubles `DATA` and adds the bit, and a run of pushes is that
step folded over the bits. -/

namespace Sys2Proof.Machine

/-- No bit is lost at the left end while the value fits in fewer bits than the register has. -/
theorem shiftIn_toNat {w len : Nat} {d : BitVec w} (b : BitVec 1) (hd : d.toNat < 2 ^ len) (hlen : len < w) :
    (shiftIn d b).toNat = 2 * d.toNat + b.toNat := by
  have hfits : 2 * d.toNat < 2 ^ w :=
    calc 2 * d.toNat < 2 ^ (len + 1) := by rw [pow_succ]; omega
      _ ≤ 2 ^ w := Nat.pow_le_pow_right (by decide) hlen
  have hb : b.toNat < 2 ^ w := b.isLt.trans_le (Nat.pow_le_pow_right (by decide) (by omega))
  have hshift : (d <<< 1).toNat = 2 * d.toNat := by
    rw [BitVec.toNat_shiftLeft, Nat.shiftLeft_eq, pow_one, mul_comm, Nat.mod_eq_of_lt hfits]
  rw [shiftIn, BitVec.toNat_or, hshift, BitVec.toNat_setWidth, Nat.mod_eq_of_lt hb]
  simpa using (Nat.two_pow_add_eq_or_of_lt (i := 1) b.isLt d.toNat).symm

section
variable {n : Nat} {g : Engine n}

theorem pushBit_of_room (b : BitVec 1) (herr : g.err = 0) (hroom : g.len.toNat < n) :
    pushBit b g = { g with data := shiftIn g.data b, len := g.len + 1 } := by
  rcases pushBit_cases b g with ⟨hne, -⟩ | ⟨-, hfull, -⟩ | ⟨-, -, h⟩
  · exact absurd herr hne
  · exact absurd hfull hroom.ne
  · exact h

/-- A run of pushes that fits, from any loaded `LEN`: the bits are appended after those `DATA` holds. -/
theorem pushBits_of_room (hn : n ≤ 4095) (bs : List (BitVec 1)) (herr : g.err = 0)
    (hdata : g.data.toNat < 2 ^ g.len.toNat) (hroom : g.len.toNat + bs.length ≤ n) :
    (bs.foldl (fun h b => pushBit b h) g).len.toNat = g.len.toNat + bs.length ∧
    (bs.foldl (fun h b => pushBit b h) g).data.toNat = bs.foldl (fun v b => 2 * v + b.toNat) g.data.toNat ∧
    (bs.foldl (fun h b => pushBit b h) g).err = 0 := by
  induction bs generalizing g with
  | nil => exact ⟨rfl, rfl, herr⟩
  | cons b bs ih =>
    rw [List.length_cons] at hroom
    have hlt : g.len.toNat < n := by omega
    have hlen : (g.len + 1).toNat = g.len.toNat + 1 := toNat_succ (by omega)
    obtain ⟨hlen', hdata', herr'⟩ := ih (g := { g with data := shiftIn g.data b, len := g.len + 1 }) herr
      (by simpa only [hlen] using shiftIn_lt b hdata) (by simp only [hlen]; omega)
    rw [List.foldl_cons, List.foldl_cons, pushBit_of_room b herr hlt]
    refine ⟨?_, ?_, herr'⟩
    · rw [hlen', hlen, List.length_cons]; omega
    · rw [hdata', shiftIn_toNat b hdata hlt]

end

/-- Settles O11: a cleared engine holds 0 in `LEN = 0` bits, so every one of at most `NMAX` pushes fits. -/
theorem pushedBitsAreMostSignificantFirst : Obligations.PushedBitsAreMostSignificantFirst := by
  unfold Obligations.PushedBitsAreMostSignificantFirst
  intro n g bs hn hdata hlen herr hbs
  simpa [hdata, hlen] using pushBits_of_room hn bs herr (by simp [hdata]) (by simpa [hlen] using hbs)

end Sys2Proof.Machine

/-! Decoding as a function of the two fields of a word (R70, R73, R74). The opcode selects a command, its immediate must lie
below the command's limit, and the two fields together are the whole word; from this follow both round trips. -/

namespace Sys2Proof

open Laws.OpcodeField (opcodeOf)

/-- The upper bits of a vector are 0 exactly when its value fits in the lower ones. -/
theorem extractLsb'_eq_zero_iff_lt {n k m : Nat} (hn : k + m = n) (x : BitVec n) :
    x.extractLsb' k m = 0#m ↔ x.toNat < 2 ^ k := by
  have hx : x.toNat / 2 ^ k < 2 ^ m := by
    rw [Nat.div_lt_iff_lt_mul (by positivity), ← pow_add, add_comm m, hn]
    exact x.isLt
  rw [← BitVec.toNat_inj, BitVec.extractLsb'_toNat, Nat.shiftRight_eq_div_pow, Nat.mod_eq_of_lt hx]
  simp [Nat.div_eq_zero_iff]

theorem setWidth_extractLsb'_of_lt {n k : Nat} {x : BitVec n} (hx : x.toNat < 2 ^ k) :
    (x.extractLsb' 0 k).setWidth n = x := by
  apply BitVec.eq_of_toNat_eq
  rw [BitVec.toNat_setWidth, BitVec.extractLsb'_toNat, Nat.shiftRight_zero, Nat.mod_eq_of_lt hx, Nat.mod_eq_of_lt x.isLt]

/-! ### The two fields of a word -/

theorem opField_append_immField (w : CmdWord) : (opField w ++ immField w : BitVec (4 + 12)) = w :=
  BitVec.extractLsb'_append_extractLsb'

theorem eq_of_fields_eq {w w' : CmdWord} (hop : opField w = opField w') (himm : immField w = immField w') : w = w' := by
  rw [← opField_append_immField w, hop, himm, opField_append_immField]

theorem toNat_eq_fields (w : CmdWord) : w.toNat = 4096 * (opField w).toNat + (immField w).toNat := by
  simp only [opField, immField, BitVec.extractLsb'_toNat, Nat.shiftRight_eq_div_pow]
  omega

theorem immField_setWidth {n : Nat} (x : BitVec n) : immField (x.setWidth 16) = x.setWidth 12 := by
  rw [immField, ← BitVec.setWidth_eq_extractLsb' (by decide), BitVec.setWidth_setWidth_of_le x (by decide)]

theorem opField_encode (i : Instr) : opField (encode i) = opcodeOf i := by
  cases i with
  | clr => exact Laws.OpcodeField.clr
  | push b => exact Laws.OpcodeField.push b
  | setpoly p => exact Laws.OpcodeField.setpoly p
  | setmax m => exact Laws.OpcodeField.setmax m
  | setexp x => exact Laws.OpcodeField.setexp x
  | crc => exact Laws.OpcodeField.crc
  | solve => exact Laws.OpcodeField.solve

theorem immField_encode (i : Instr) : immField (encode i) = immField (immediate i) := by
  have hmatch : immField (matchBits i) = 0#12 := by
    cases i with
    | clr | push _ | setpoly _ | setmax _ | setexp _ | crc | solve => simp [matchBits, immField]
  rw [encode, immField, BitVec.extractLsb'_or, ← immField, hmatch, BitVec.zero_or, ← immField]

/-! ### What decoding does with them -/

/-- How many immediate values the command of an opcode takes (R73): `2 ^ k` for an operand of `k` bits, none where the
opcode is reserved (R75). -/
def immLimit (op : BitVec 4) : Nat := ([0, 1, 2, 512, 4096, 256, 1, 1] : List Nat).getD op.toNat 0

/-- The command `i` with the operand that an immediate holds in the bits `i` uses (R73). -/
def withImmediate (imm : BitVec 12) : Instr → Instr
  | .clr => .clr
  | .push _ => .push (imm.extractLsb' 0 1)
  | .setpoly _ => .setpoly (imm.extractLsb' 0 9)
  | .setmax _ => .setmax imm
  | .setexp _ => .setexp (imm.extractLsb' 0 8)
  | .crc => .crc
  | .solve => .solve

theorem opcodeOf_withImmediate (imm : BitVec 12) (i : Instr) : opcodeOf (withImmediate imm i) = opcodeOf i := by
  cases i <;> rfl

theorem immField_immediate_lt (i : Instr) : (immField (immediate i)).toNat < immLimit (opcodeOf i) := by
  cases i with
  | clr | crc | solve => decide
  | push b | setpoly b | setmax b | setexp b =>
    rw [immediate, immField_setWidth, BitVec.toNat_setWidth]
    exact (Nat.mod_le _ _).trans_lt b.isLt

theorem withImmediate_immField_immediate (i : Instr) : withImmediate (immField (immediate i)) i = i := by
  cases i with
  | clr | crc | solve => rfl
  | push b | setpoly b | setmax b | setexp b =>
    simp [withImmediate, immediate, immField_setWidth, BitVec.extractLsb'_setWidth_of_le, BitVec.extractLsb'_eq_self]

theorem immField_immediate_withImmediate {imm : BitVec 12} {i : Instr} (h : imm.toNat < immLimit (opcodeOf i)) :
    immField (immediate (withImmediate imm i)) = imm := by
  cases i with
  | clr | crc | solve =>
    have hzero : imm.toNat = 0 := Nat.lt_one_iff.mp h
    exact (BitVec.eq_of_toNat_eq hzero).symm
  | setmax m => rw [withImmediate, immediate, immField_setWidth, BitVec.setWidth_eq]
  | push b | setpoly b | setexp b =>
    rw [withImmediate, immediate, immField_setWidth]
    exact setWidth_extractLsb'_of_lt h

theorem legalIf_eq_ok_iff {b : Bool} {i j : Instr} : legalIf b i = .ok j ↔ b = true ∧ i = j := by
  cases b <;> simp [legalIf]

theorem legalIf_ne_reservedOpcode {b : Bool} {i : Instr} : legalIf b i ≠ .error .reservedOpcode := by
  cases b <;> simp [legalIf]

/-- R74 for the opcode of a command: the word is legal exactly when the immediate lies below the limit. -/
theorem decode_of_opcode {w : CmdWord} {i : Instr} (h : opField w = opcodeOf i) :
    decode w = legalIf (decide ((immField w).toNat < immLimit (opField w))) (withImmediate (immField w) i) := by
  have hzero : (immField w == 0#12) = decide ((immField w).toNat < 1) := by
    rw [Bool.eq_iff_iff, beq_iff_eq, decide_eq_true_iff, Nat.lt_one_iff, ← BitVec.toNat_inj, BitVec.toNat_zero]
  have hupper : ∀ k m, k + m = 12 → ((immField w).extractLsb' k m == 0#m) = decide ((immField w).toNat < 2 ^ k) := by
    intro k m hkm
    rw [Bool.eq_iff_iff, beq_iff_eq, decide_eq_true_iff, extractLsb'_eq_zero_iff_lt hkm]
  cases i with
  | clr | crc | solve => simp [decode, h, opcodeOf, immLimit, withImmediate, hzero]
  | push b => simp [decode, h, opcodeOf, immLimit, withImmediate, hupper 1 11 rfl]
  | setpoly p => simp [decode, h, opcodeOf, immLimit, withImmediate, hupper 9 3 rfl]
  | setmax m => simp [decode, h, opcodeOf, immLimit, withImmediate, legalIf, (immField w).isLt]
  | setexp x => simp [decode, h, opcodeOf, immLimit, withImmediate, hupper 8 4 rfl]

/-- R75: every opcode is a command's or is reserved. -/
theorem exists_opcodeOf_or_reserved (op : BitVec 4) :
    (∃ i, op = opcodeOf i) ∨ op.toNat = 0 ∨ 8 ≤ op.toNat := by
  have hcases : op = 1 ∨ op = 2 ∨ op = 3 ∨ op = 4 ∨ op = 5 ∨ op = 6 ∨ op = 7 ∨ op.toNat = 0 ∨ 8 ≤ op.toNat := by bv_omega
  rcases hcases with h | h | h | h | h | h | h | h
  · exact .inl ⟨.clr, h⟩
  · exact .inl ⟨.push 0, h⟩
  · exact .inl ⟨.setpoly 0, h⟩
  · exact .inl ⟨.setmax 0, h⟩
  · exact .inl ⟨.setexp 0, h⟩
  · exact .inl ⟨.crc, h⟩
  · exact .inl ⟨.solve, h⟩
  · exact .inr h

theorem decode_of_reserved {w : CmdWord} (h : (opField w).toNat = 0 ∨ 8 ≤ (opField w).toNat) :
    decode w = .error .reservedOpcode := by
  have hne : ∀ k : BitVec 4, 1 ≤ k.toNat → k.toNat ≤ 7 → opField w ≠ k := by
    rintro k hk hk' rfl
    omega
  simp [decode, hne]

theorem decode_encode (i : Instr) : decode (encode i) = .ok i := by
  rw [decode_of_opcode (opField_encode i), legalIf_eq_ok_iff, opField_encode, immField_encode, decide_eq_true_iff]
  exact ⟨immField_immediate_lt i, withImmediate_immField_immediate i⟩

theorem encode_withImmediate {w : CmdWord} {i : Instr} (hop : opField w = opcodeOf i)
    (himm : (immField w).toNat < immLimit (opField w)) : encode (withImmediate (immField w) i) = w := by
  apply eq_of_fields_eq
  · rw [opField_encode, opcodeOf_withImmediate, hop]
  · rw [immField_encode, immField_immediate_withImmediate (hop ▸ himm)]

/-- Decoding and encoding are inverse to each other on the legal words. -/
theorem decode_eq_ok_iff {w : CmdWord} {i : Instr} : decode w = .ok i ↔ encode i = w := by
  constructor
  · intro h
    rcases exists_opcodeOf_or_reserved (opField w) with ⟨j, hop⟩ | hres
    · rw [decode_of_opcode hop, legalIf_eq_ok_iff, decide_eq_true_iff] at h
      obtain ⟨himm, rfl⟩ := h
      exact encode_withImmediate hop himm
    · simp [decode_of_reserved hres] at h
  · rintro rfl
    exact decode_encode i

/-- Settles O1: the opcode of an encoded command selects the command, and its immediate lies below the limit. -/
theorem decodeInvertsEncode : Obligations.DecodeInvertsEncode := decode_encode

/-- Settles O2: the opcode and the immediate below the limit, which a legal word decodes to, are all its bits. -/
theorem encodeInvertsDecode : Obligations.EncodeInvertsDecode := fun _ _ => decode_eq_ok_iff.mp

end Sys2Proof

/-! What follows from the fields: the table of R71, the words R74 calls illegal, how many are legal, and the examples of
R85. -/

namespace Sys2Proof

open Laws.OpcodeField (opcodeOf)

theorem immLimit_le (op : BitVec 4) : immLimit op ≤ 4096 := by
  revert op
  decide

theorem immLimit_eq_zero_iff (op : BitVec 4) : immLimit op = 0 ↔ op.toNat = 0 ∨ 8 ≤ op.toNat := by
  revert op
  decide

/-- R74 and R75: a word is legal exactly when its immediate lies below the limit of its opcode. -/
theorem exists_decode_eq_ok_iff (w : CmdWord) :
    (∃ i, decode w = .ok i) ↔ (immField w).toNat < immLimit (opField w) := by
  constructor
  · rintro ⟨i, hi⟩
    obtain rfl := decode_eq_ok_iff.mp hi
    rw [immField_encode, opField_encode]
    exact immField_immediate_lt i
  · intro himm
    rcases exists_opcodeOf_or_reserved (opField w) with ⟨i, hop⟩ | hres
    · exact ⟨_, decode_eq_ok_iff.mpr (encode_withImmediate hop himm)⟩
    · simp [(immLimit_eq_zero_iff _).mpr hres] at himm

theorem decode_eq_reservedOpcode_iff (w : CmdWord) :
    decode w = .error .reservedOpcode ↔ immLimit (opField w) = 0 := by
  rw [immLimit_eq_zero_iff]
  refine ⟨fun h => ?_, decode_of_reserved⟩
  rcases exists_opcodeOf_or_reserved (opField w) with ⟨i, hop⟩ | hres
  · rw [decode_of_opcode hop] at h
    exact absurd h legalIf_ne_reservedOpcode
  · exact hres

/-- The third outcome: neither legal nor of a reserved opcode. -/
theorem decode_eq_unusedImmediate_iff (w : CmdWord) :
    decode w = .error .unusedImmediate ↔
      immLimit (opField w) ≠ 0 ∧ immLimit (opField w) ≤ (immField w).toNat := by
  rw [ne_eq, ← decode_eq_reservedOpcode_iff, ← not_lt, ← exists_decode_eq_ok_iff]
  rcases decode w with ⟨_ | _⟩ | i <;> simp

/-! ### The opcode table -/

/-- Every mask of the table keeps the bits from some position `k` up, so a row's words are the `2 ^ k` from its match. -/
theorem and_upperMask_eq_iff {w v : CmdWord} {k : Nat} (hv : 2 ^ k ∣ v.toNat) :
    w &&& BitVec.allOnes 16 <<< k = v ↔ v.toNat ≤ w.toNat ∧ w.toNat < v.toNat + 2 ^ k := by
  obtain ⟨c, hc⟩ := hv
  have hpow : 0 < 2 ^ k := by positivity
  rw [← BitVec.shiftLeft_ushiftRight, ← BitVec.toNat_inj, BitVec.toNat_shiftLeft, BitVec.toNat_ushiftRight,
    Nat.shiftLeft_eq, Nat.shiftRight_eq_div_pow, Nat.mod_eq_of_lt ((Nat.div_mul_le_self _ _).trans_lt w.isLt), hc,
    mul_comm, Nat.mul_right_inj hpow.ne', Nat.div_eq_iff hpow, mul_comm c]
  omega

/-- What the rows have in common: the mask frees as many low bits as the immediates of the opcode need, and the match has
an immediate of 0. -/
theorem exists_mask_eq_shiftLeft {r : OpcodeRow} (hr : r ∈ opcodeTable) :
    ∃ k, r.mask = BitVec.allOnes 16 <<< k ∧ immLimit (opField r.matchWord) = 2 ^ k ∧ 2 ^ k ∣ r.matchWord.toNat ∧
      (immField r.matchWord).toNat = 0 := by
  simp only [opcodeTable, List.mem_cons, List.not_mem_nil, or_false] at hr
  rcases hr with rfl | rfl | rfl | rfl | rfl | rfl | rfl
  · exact ⟨0, by decide⟩
  · exact ⟨1, by decide⟩
  · exact ⟨9, by decide⟩
  · exact ⟨12, by decide⟩
  · exact ⟨8, by decide⟩
  · exact ⟨0, by decide⟩
  · exact ⟨0, by decide⟩

theorem accepts_iff_lt_immLimit {r : OpcodeRow} (hr : r ∈ opcodeTable) (w : CmdWord) :
    r.accepts w = true ↔
      opField w = opField r.matchWord ∧ (immField w).toNat < immLimit (opField r.matchWord) := by
  obtain ⟨k, hmask, hlimit, hdvd, himm⟩ := exists_mask_eq_shiftLeft hr
  have hle := immLimit_le (opField r.matchWord)
  have hlt := (immField w).isLt
  rw [OpcodeRow.accepts, beq_iff_eq, hmask, and_upperMask_eq_iff hdvd, ← hlimit, toNat_eq_fields w,
    toNat_eq_fields r.matchWord, himm, ← BitVec.toNat_inj]
  omega

/-- A row of the table is named by its opcode. -/
theorem mnemonic_eq_iff {r : OpcodeRow} (hr : r ∈ opcodeTable) (i : Instr) :
    i.mnemonic = r.mnemonic ↔ opcodeOf i = opField r.matchWord := by
  cases i with
  | clr | push _ | setpoly _ | setmax _ | setexp _ | crc | solve =>
    rw [Instr.mnemonic, opcodeOf]
    revert r
    decide

theorem row_eq_of_opField_eq : ∀ r ∈ opcodeTable, ∀ r' ∈ opcodeTable,
    opField r.matchWord = opField r'.matchWord → r = r' := by
  decide

theorem accepts_iff_decode {r : OpcodeRow} (hr : r ∈ opcodeTable) (w : CmdWord) :
    r.accepts w = true ↔ ∃ i, decode w = .ok i ∧ i.mnemonic = r.mnemonic := by
  rw [accepts_iff_lt_immLimit hr]
  constructor
  · rintro ⟨hop, himm⟩
    obtain ⟨i, hi⟩ := (exists_decode_eq_ok_iff w).mpr (hop ▸ himm)
    refine ⟨i, hi, (mnemonic_eq_iff hr i).mpr ?_⟩
    rw [← opField_encode, decode_eq_ok_iff.mp hi, hop]
  · rintro ⟨i, hi, hname⟩
    have hop : opField w = opField r.matchWord := by
      rw [← decode_eq_ok_iff.mp hi, opField_encode, (mnemonic_eq_iff hr i).mp hname]
    exact ⟨hop, hop ▸ (exists_decode_eq_ok_iff w).mp ⟨i, hi⟩⟩

/-- Settles O3: a row's words are those of its opcode whose immediate lies below the limit, and no two rows share their
opcode. -/
theorem opcodeTableSelectsCommand : Obligations.OpcodeTableSelectsCommand := by
  unfold Obligations.OpcodeTableSelectsCommand
  refine ⟨fun w r hr => accepts_iff_decode hr w, fun w r r' hr hr' h h' => ?_⟩
  obtain ⟨hop, -⟩ := (accepts_iff_lt_immLimit hr w).mp h
  obtain ⟨hop', -⟩ := (accepts_iff_lt_immLimit hr' w).mp h'
  exact row_eq_of_opField_eq r hr r' hr' (hop.symm.trans hop')

/-! ### The illegal words -/

/-- The opcodes with an unused immediate bit, and the least immediate that sets one. -/
theorem immLimit_le_iff (op : BitVec 4) {m : Nat} (hm : m < 4096) :
    immLimit op ≠ 0 ∧ immLimit op ≤ m ↔
      (op.toNat = 1 ∧ m ≠ 0) ∨ (op.toNat = 2 ∧ 2 ≤ m) ∨ (op.toNat = 3 ∧ 512 ≤ m) ∨ (op.toNat = 5 ∧ 256 ≤ m) ∨
      (op.toNat = 6 ∧ m ≠ 0) ∨ (op.toNat = 7 ∧ m ≠ 0) := by
  rcases exists_opcodeOf_or_reserved op with ⟨i, rfl⟩ | hres
  · cases i with
    | clr | push _ | setpoly _ | setmax _ | setexp _ | crc | solve =>
      simp [opcodeOf, immLimit] <;> omega
  · rw [(immLimit_eq_zero_iff op).mpr hres]
    omega

/-- Settles O6: the reserved opcodes have limit 0; an immediate at or above another limit sets an unused bit. -/
theorem illegalWordsAreExactlyThese : Obligations.IllegalWordsAreExactlyThese := by
  unfold Obligations.IllegalWordsAreExactlyThese
  intro w
  rw [decode_eq_reservedOpcode_iff, decode_eq_unusedImmediate_iff]
  exact ⟨immLimit_eq_zero_iff _, immLimit_le_iff _ (immField w).isLt⟩

/-! ### The number of legal words -/

theorem toBool_decode_iff (w : CmdWord) : (decode w).toBool = true ↔ ∃ i, decode w = .ok i := by
  cases decode w <;> simp [Except.toBool]

/-- The numbers below `n * m` are counted in `m` blocks of `n`. -/
theorem count_mul_eq_sum (p : Nat → Prop) [DecidablePred p] (n m : Nat) :
    Nat.count p (n * m) = ∑ i ∈ Finset.range m, Nat.count (fun k => p (n * i + k)) n := by
  induction m with
  | zero => simp
  | succ m ih => rw [Nat.mul_succ, Nat.count_add, ih, Finset.sum_range_succ]

theorem count_eq_of_forall_iff_lt {p : Nat → Prop} [DecidablePred p] {b n : Nat} (hb : b ≤ n)
    (hp : ∀ k < n, p k ↔ k < b) : Nat.count p n = b := by
  obtain ⟨d, rfl⟩ := Nat.exists_eq_add_of_le hb
  have hbelow : Nat.count p b = b := Nat.count_of_forall fun k hk => (hp k (by omega)).mpr hk
  have habove : Nat.count (fun k => p (b + k)) d = 0 :=
    Nat.count_of_forall_not fun k hk hpk => absurd ((hp (b + k) (by omega)).mp hpk) (by omega)
  rw [Nat.count_add, hbelow, habove, add_zero]

theorem fields_ofNat {op imm : Nat} (hop : op < 16) (himm : imm < 4096) :
    opField (BitVec.ofNat 16 (4096 * op + imm)) = BitVec.ofNat 4 op ∧
    (immField (BitVec.ofNat 16 (4096 * op + imm))).toNat = imm := by
  have hword := toNat_eq_fields (BitVec.ofNat 16 (4096 * op + imm))
  have hlt := (immField (BitVec.ofNat 16 (4096 * op + imm))).isLt
  rw [BitVec.toNat_ofNat, Nat.mod_eq_of_lt (by omega)] at hword
  refine ⟨BitVec.eq_of_toNat_eq ?_, by omega⟩
  rw [BitVec.toNat_ofNat, Nat.mod_eq_of_lt (by omega)]
  omega

/-- An opcode has as many legal words as its limit says. -/
theorem count_legal_of_opcode {op : Nat} (hop : op < 16) :
    Nat.count (fun imm => (decode (BitVec.ofNat 16 (4096 * op + imm))).toBool = true) 4096 =
      immLimit (BitVec.ofNat 4 op) := by
  refine count_eq_of_forall_iff_lt (immLimit_le _) fun imm himm => ?_
  obtain ⟨hopField, himmField⟩ := fields_ofNat hop himm
  rw [toBool_decode_iff, exists_decode_eq_ok_iff, hopField, himmField]

theorem count_legal : Nat.count (fun k => (decode (BitVec.ofNat 16 k)).toBool = true) 65536 = 4869 := by
  rw [show 65536 = 4096 * 16 from rfl, count_mul_eq_sum,
    Finset.sum_congr rfl fun op hop => count_legal_of_opcode (Finset.mem_range.mp hop)]
  decide

theorem length_filter_range (p : Nat → Bool) (n : Nat) :
    ((List.range n).filter p).length = Nat.count (fun k => p k = true) n := by
  simp [Nat.count, List.countP_eq_length_filter]

theorem length_filter_not_range (p : Nat → Bool) (n : Nat) :
    ((List.range n).filter fun k => !p k).length = n - Nat.count (fun k => p k = true) n := by
  have hsum := List.length_eq_length_filter_add (l := List.range n) p
  rw [List.length_range, length_filter_range] at hsum
  omega

/-- Settles O4: the legal words are counted opcode by opcode, and the others are the rest of the 65536. -/
theorem legalWordCount : Obligations.LegalWordCount := by
  unfold Obligations.LegalWordCount
  rw [length_filter_range, length_filter_not_range, count_legal]
  exact ⟨rfl, rfl⟩

/-! ### The examples of R85 -/

/-- Settles O5: decoding an example's word gives its command back because encoding gives the word; in each illegal word the
immediate is not below the limit. -/
theorem encodingExamplesDecode : Obligations.EncodingExamplesDecode := by
  unfold Obligations.EncodingExamplesDecode
  constructor
  · intro p hp
    have hencode : encode p.1 = p.2 := by revert p; decide
    exact ⟨hencode, decode_eq_ok_iff.mpr hencode⟩
  · simp only [Bool.eq_false_iff, ne_eq, toBool_decode_iff, exists_decode_eq_ok_iff, List.forall_mem_cons,
      List.not_mem_nil, false_implies, implies_true]
    decide

end Sys2Proof

/-! The assembler (R80) and its pseudo-instructions (R84). -/

namespace Sys2Proof.Machine

/-- One operand out of range refuses the whole text; otherwise the words are those of the expansions, in order. -/
theorem assemble_eq_ite (cs : List SourceCommand) :
    assemble cs =
      if ∀ c ∈ cs, c.wellFormed = true then some ((cs.flatMap expand).map encode) else none := by
  induction cs with
  | nil => simp [assemble]
  | cons c cs ih =>
    simp only [assemble, ih, List.forall_mem_cons, List.flatMap_cons, List.map_append]
    by_cases hcs : ∀ c ∈ cs, c.wellFormed = true
    · simp only [eq_true hcs, and_true, if_true]
    · simp only [eq_false hcs, and_false, if_false]

/-- Settles O7: a word the assembler emits is an encoding, so it decodes. -/
theorem assemblerEmitsLegalWords : Obligations.AssemblerEmitsLegalWords := by
  unfold Obligations.AssemblerEmitsLegalWords
  refine ⟨fun cs h => ?_, fun cs ⟨c, hc, hbad⟩ => ?_, fun cs ws h w hw => ?_⟩
  · rw [assemble_eq_ite, if_pos h]
  · rw [assemble_eq_ite, if_neg fun h => by simp [h c hc] at hbad]
  · rw [assemble_eq_ite, Option.ite_none_right_eq_some, Option.some_inj] at h
    obtain ⟨-, rfl⟩ := h
    obtain ⟨i, -, rfl⟩ := List.mem_map.mp hw
    exact ⟨i, decode_encode i⟩

theorem pushesOf_eq_map_filter (text : List Char) :
    pushesOf text = (text.filter fun c => c == '0' || c == '1').map fun c => .push (if c = '1' then 1 else 0) := by
  induction text with
  | nil => rfl
  | cons c cs ih =>
    by_cases h0 : c = '0'
    · simp [pushesOf, ih, h0]
    · by_cases h1 : c = '1' <;> simp [pushesOf, ih, h0, h1]

/-- Settles O8, by induction on the text. -/
theorem pseudoInstructionsExpandToPush : Obligations.PseudoInstructionsExpandToPush := by
  unfold Obligations.PseudoInstructionsExpandToPush
  exact ⟨pushesOf_eq_map_filter, rfl⟩

end Sys2Proof.Machine

/-! The division scan bit by bit: which bits of the value and of the polynomial its result depends on (R105 to R109), and how
far down it clears the value. -/

namespace Sys2Proof.Machine

/-! ### One iteration -/

section
variable {w k : Nat} {P Q : Poly} {a b : BitVec w}

theorem divideBit_of_clear {pos : Nat} (h : a.getLsbD pos = false) : divideBit P pos a = a := by
  simp [divideBit, h]

/-- The tested bit survives only where bit 8 of the polynomial is clear (R105). -/
theorem getLsbD_divideBit_self {pos : Nat} (hpos : 8 ≤ pos) :
    (divideBit P pos a).getLsbD pos = (a.getLsbD pos && !P.getLsbD 8) := by
  cases ha : a.getLsbD pos with
  | false => simp [divideBit_of_clear ha, ha]
  | true =>
    have hw : pos < w := BitVec.lt_of_getLsbD ha
    have hle : ¬pos < pos - 8 := by omega
    have h8 : pos - (pos - 8) = 8 := by omega
    rw [divideBit, if_pos ha, BitVec.getLsbD_xor, ha, BitVec.getLsbD_shiftLeft, BitVec.getLsbD_setWidth, h8]
    simp [hw, hle, hpos.trans_lt hw]

/-- Below the tested bit an iteration depends on the value up to that bit and on the low byte of the polynomial (R105). -/
theorem getLsbD_divideBit_congr (hPQ : lowByte P = lowByte Q) (hab : ∀ i < k + 9, a.getLsbD i = b.getLsbD i) {i : Nat}
    (hi : i < k + 8) : (divideBit P (k + 8) a).getLsbD i = (divideBit Q (k + 8) b).getLsbD i := by
  have hbit : P.getLsbD (i - k) = Q.getLsbD (i - k) := by
    have hlow := congrArg (fun c : Checksum => c.getLsbD (i - k)) hPQ
    have hik : i - k < 8 := by omega
    simpa [lowByte, hik] using hlow
  have htest := hab (k + 8) (by omega)
  have hai := hab i (by omega)
  cases hb : b.getLsbD (k + 8) <;> simp [divideBit, htest, hb, hai, hbit]

theorem divideBit_lt_of_top (hP : P.getLsbD 8 = true) (ha : a.toNat < 2 ^ (k + 9)) :
    (divideBit P (k + 8) a).toNat < 2 ^ (k + 8) := by
  have hlt : (divideBit P (k + 8) a).toNat < 2 ^ (k + 9) := divideBit_lt ha (by omega) (by omega)
  have htop : (divideBit P (k + 8) a).getLsbD (k + 8) = false := by
    rw [getLsbD_divideBit_self (by omega), hP]; simp
  refine Nat.lt_pow_two_of_testBit _ fun i hi => ?_
  rcases Nat.eq_or_lt_of_le hi with rfl | hi
  · exact htop
  · exact Nat.testBit_lt_two_pow (hlt.trans_le (Nat.pow_le_pow_right (by decide) hi))

/-! ### The whole scan -/

theorem lowByte_divideFrom_congr (hPQ : lowByte P = lowByte Q) (hab : ∀ i < k + 8, a.getLsbD i = b.getLsbD i) :
    lowByte (divideFrom P k a) = lowByte (divideFrom Q k b) := by
  induction k generalizing a b with
  | zero => ext i hi; simpa [lowByte, divideFrom, hi] using hab i (by omega)
  | succ k ih => exact ih fun i hi => getLsbD_divideBit_congr hPQ hab hi

/-- With bit 8 of the polynomial set, every tested bit is cleared (R105). -/
theorem divideFrom_lt_of_top (hP : P.getLsbD 8 = true) (ha : a.toNat < 2 ^ (k + 8)) :
    (divideFrom P k a).toNat < 2 ^ 8 := by
  induction k generalizing a with
  | zero => exact ha
  | succ k ih => exact ih (divideBit_lt_of_top hP ha)

/-- Positions where the value holds 0 are passed without effect (R108). -/
theorem divideFrom_of_lt (ha : a.toNat < 2 ^ 8) : divideFrom P k a = a := by
  induction k with
  | zero => rfl
  | succ k ih =>
    have hclear : a.getLsbD (k + 8) = false :=
      Nat.testBit_lt_two_pow (ha.trans_le (Nat.pow_le_pow_right (by decide) (by omega)))
    rw [divideFrom, divideBit_of_clear hclear, ih]

theorem divideFrom_zero_poly : divideFrom 0 k a = a := by
  induction k generalizing a with
  | zero => rfl
  | succ k ih => rw [divideFrom, ih]; simp [divideBit]

end

/-! ### The checksum -/

section
variable {w : Nat} {P Q : Poly} (v : BitVec w) (len : Nat)

/-- The checksum depends on the polynomial only through its low byte (R105). -/
theorem crc8_congr_poly (h : lowByte P = lowByte Q) : crc8 v len P = crc8 v len Q :=
  lowByte_divideFrom_congr h fun _ _ => rfl

theorem crc8_or_topBit : crc8 v len (P ||| 0x100) = crc8 v len P :=
  crc8_congr_poly v len (by simp [lowByte])

theorem crc8_and_lowBits : crc8 v len (P &&& 0xFF) = crc8 v len P := by
  refine crc8_congr_poly v len ?_
  rw [lowByte, BitVec.setWidth_and]
  exact BitVec.and_allOnes

theorem crc8_zero_poly : crc8 v len 0 = lowByte v := by
  rw [crc8, divide, divideFrom_zero_poly]

/-- A value within its low byte has no bit for the scan to test (R108). -/
theorem crc8_of_lt {v : BitVec w} (hv : v.toNat < 2 ^ 8) : crc8 v len P = lowByte v := by
  rw [crc8, divide, divideFrom_of_lt hv]

theorem divide_lt_of_top {v : BitVec w} (hP : P.getLsbD 8 = true) (hlen : 8 ≤ len) (hv : v.toNat < 2 ^ len) :
    (divide v len P).toNat < 2 ^ 8 :=
  divideFrom_lt_of_top hP (by rwa [Nat.sub_add_cancel hlen])

end

/-- A value within its low byte is that byte. -/
theorem setWidth_lowByte {w : Nat} {v : BitVec w} (hv : v.toNat < 2 ^ 8) : (lowByte v).setWidth w = v := by
  apply BitVec.eq_of_toNat_eq
  have hw := v.isLt
  simp only [lowByte, BitVec.toNat_setWidth, Nat.mod_eq_of_lt hv, Nat.mod_eq_of_lt hw]

theorem lowByte_setWidth {n : Nat} (hn : 8 ≤ n) (c : Checksum) : lowByte (c.setWidth n) = c := by
  rw [lowByte, BitVec.setWidth_setWidth_of_le _ hn, BitVec.setWidth_eq]

theorem checksum_setWidth_lt (n : Nat) (c : Checksum) : (c.setWidth n).toNat < 2 ^ 8 := by
  rw [BitVec.toNat_setWidth]; exact (Nat.mod_le _ _).trans_lt c.isLt

/-- Settles O36: every iteration of the scan is linear, and so is taking the low byte. -/
theorem checksumIsLinear : Obligations.ChecksumIsLinear := by
  unfold Obligations.ChecksumIsLinear
  intro n v u P _
  exact ⟨crc8_xor v u n P, crc8_zero n n P⟩

/-- Settles O37: polynomials with one low byte give one checksum, and bit 8 decides whether a tested bit is cleared. -/
theorem topPolynomialBitIsImmaterial : Obligations.TopPolynomialBitIsImmaterial := by
  unfold Obligations.TopPolynomialBitIsImmaterial
  intro n v P hn
  refine ⟨(crc8_or_topBit v n).symm, (crc8_and_lowBits v n).symm, fun hP => ?_, fun hP pos a hpos => ?_, fun hP => ?_⟩
  · have hlt := divide_lt_of_top n hP hn v.isLt
    exact ⟨hlt, (setWidth_lowByte hlt).symm⟩
  · rw [getLsbD_divideBit_self hpos, hP]; simp
  · rw [← crc8_and_lowBits, hP, crc8_zero_poly]

/-- Settles O38: in a value below `2^8` every tested bit is 0. -/
theorem zeroMessageGivesSuffix : Obligations.ZeroMessageGivesSuffix := by
  unfold Obligations.ZeroMessageGivesSuffix
  intro n P _
  refine ⟨crc8_zero n n P, fun v hv => crc8_of_lt n hv, fun v => ?_⟩
  rw [crc8_of_lt 8 v.isLt, lowByte, BitVec.setWidth_eq]

/-- A value with an empty low byte takes a checksum there by exclusive-or. -/
theorem or_checksum_eq_xor {n : Nat} {b : BitVec n} (hb : lowByte b = 0) (c : Checksum) :
    b ||| c.setWidth n = b ^^^ c.setWidth n := by
  ext i hi
  by_cases h8 : i < 8
  · have hbit := congrArg (fun c : Checksum => c.getLsbD i) hb
    have hb0 : b[i] = false := by simpa [lowByte, h8, hi] using hbit
    simp [hb0]
  · simp [BitVec.getLsbD_of_ge c i (by omega)]

/-- Settles O39: by linearity the checksum of the whole is that of `b`, exclusive-or that of the appended byte, which is
itself. -/
theorem appendedChecksumVerifies : Obligations.AppendedChecksumVerifies := by
  unfold Obligations.AppendedChecksumVerifies
  intro n b P hn hb
  rw [or_checksum_eq_xor hb, crc8_xor, crc8_of_lt n (checksum_setWidth_lt n _), lowByte_setWidth hn]
  exact BitVec.xor_self

end Sys2Proof.Machine

/-! Values as polynomials over GF(2) (R107): the scan subtracts multiples of `x^8 + P[7:0](x)`, so the checksum is the
remainder, and the shift register of R114 is Horner's evaluation of it. -/

namespace Sys2Proof.Machine

section
open Polynomial

/-! ### The polynomial of a value -/

/-- `v(x)`, with coefficient `v[i]` at `x^i` (R107). -/
noncomputable def toPoly {w : Nat} (v : BitVec w) : (ZMod 2)[X] :=
  ∑ k ∈ Finset.range w, if v.getLsbD k then X ^ k else 0

@[simp] theorem coeff_toPoly {w : Nat} (v : BitVec w) (i : Nat) :
    (toPoly v).coeff i = if v.getLsbD i then 1 else 0 := by
  have hterm (k : Nat) : (if v.getLsbD k then X ^ k else 0 : (ZMod 2)[X]).coeff i =
      if i = k then (if v.getLsbD k then 1 else 0) else 0 := by
    split <;> simp [coeff_X_pow]
  rw [toPoly, finsetSum_coeff, Finset.sum_congr rfl fun k _ => hterm k, Finset.sum_ite_eq]
  split
  case isTrue => rfl
  case isFalse hi => simp [BitVec.getLsbD_of_ge v i (by simpa using hi)]

theorem toPoly_injective (w : Nat) : Function.Injective (toPoly : BitVec w → (ZMod 2)[X]) := by
  intro u v h
  ext i hi
  have hcoeff := congrArg (fun p => p.coeff i) h
  simp only [coeff_toPoly] at hcoeff
  cases hu : u.getLsbD i <;> cases hv : v.getLsbD i <;> simp_all

theorem degree_toPoly_lt {w : Nat} (v : BitVec w) : (toPoly v).degree < w := by
  rw [degree_lt_iff_coeff_zero]
  intro i hi
  simp [BitVec.getLsbD_of_ge v i hi]

theorem toPoly_xor {w : Nat} (u v : BitVec w) : toPoly (u ^^^ v) = toPoly u + toPoly v := by
  ext i
  rw [coeff_add, coeff_toPoly, coeff_toPoly, coeff_toPoly, BitVec.getLsbD_xor]
  cases u.getLsbD i <;> cases v.getLsbD i <;> decide

/-- A shift that loses no bit multiplies by a power of `x`. -/
theorem toPoly_setWidth_shiftLeft {m w j : Nat} (h : m + j ≤ w) (v : BitVec m) :
    toPoly (v.setWidth w <<< j) = toPoly v * X ^ j := by
  ext i
  rw [coeff_mul_X_pow', coeff_toPoly, coeff_toPoly, BitVec.getLsbD_shiftLeft, BitVec.getLsbD_setWidth]
  by_cases hji : j ≤ i
  · by_cases him : i - j < m
    · simp [hji, show i < w by omega, show i - j < w by omega, show ¬i < j by omega]
    · simp [BitVec.getLsbD_of_ge v (i - j) (by omega)]
  · simp [hji, show i < j by omega]

theorem toPoly_setWidth {m w : Nat} (h : m ≤ w) (v : BitVec m) : toPoly (v.setWidth w) = toPoly v := by
  simpa using toPoly_setWidth_shiftLeft (j := 0) h v

theorem toPoly_bit (b : Bool) : toPoly (if b then 1 else 0 : Checksum) = if b then 1 else 0 := by
  cases b <;> simp [toPoly]

/-! ### The divisor -/

/-- `G(x) = x^8 + P[7:0](x)` (R107). -/
noncomputable def generator (P : Poly) : (ZMod 2)[X] := X ^ 8 + toPoly (lowByte P)

theorem monic_generator (P : Poly) : (generator P).Monic := monic_X_pow_add (degree_toPoly_lt _)

theorem degree_generator (P : Poly) : (generator P).degree = (8 : ℕ) := by
  rw [generator, degree_add_eq_left_of_degree_lt (by rw [degree_X_pow]; exact degree_toPoly_lt _), degree_X_pow]

theorem generator_eq_sum (P : Poly) :
    generator P = X ^ 8 + ∑ k ∈ Finset.range 8, if P.getLsbD k then X ^ k else 0 := by
  rw [generator, toPoly]
  congr 1
  refine Finset.sum_congr rfl fun k hk => ?_
  have hbit : (lowByte P).getLsbD k = P.getLsbD k := by simp [lowByte, Finset.mem_range.1 hk]
  rw [hbit]

/-- With bit 8 set the polynomial register holds the divisor itself. -/
theorem toPoly_of_top {P : Poly} (hP : P.getLsbD 8 = true) : toPoly P = generator P := by
  rw [generator_eq_sum, toPoly, Finset.sum_range_succ, if_pos hP, add_comm]

theorem generator_or_topBit (P : Poly) : generator (P ||| 0x100) = generator P := by
  rw [generator, generator, show lowByte (P ||| 0x100) = lowByte P by simp [lowByte]]

theorem toPoly_modByMonic_of_lt {w : Nat} {v : BitVec w} (hv : v.toNat < 2 ^ 8) (P : Poly) :
    toPoly v %ₘ generator P = toPoly v := by
  rw [modByMonic_eq_self_iff (monic_generator P), degree_generator, degree_lt_iff_coeff_zero]
  intro i hi
  have hbit : v.getLsbD i = false := Nat.testBit_lt_two_pow (hv.trans_le (Nat.pow_le_pow_right (by decide) hi))
  simp [hbit]

/-! ### The scan keeps the remainder -/

theorem divideBit_modByMonic {n pos : Nat} {P : Poly} (hP : P.getLsbD 8 = true) (hge : 8 ≤ pos) (hlt : pos < n)
    (a : BitVec n) : toPoly (divideBit P pos a) %ₘ generator P = toPoly a %ₘ generator P := by
  unfold divideBit
  split
  · refine modByMonic_eq_of_dvd_sub (monic_generator P) ?_
    rw [toPoly_xor, toPoly_setWidth_shiftLeft (by omega), toPoly_of_top hP, add_sub_cancel_left]
    exact dvd_mul_right _ _
  · rfl

theorem divideFrom_modByMonic {n k : Nat} {P : Poly} (hP : P.getLsbD 8 = true) (hk : k + 8 ≤ n) (a : BitVec n) :
    toPoly (divideFrom P k a) %ₘ generator P = toPoly a %ₘ generator P := by
  induction k generalizing a with
  | zero => rfl
  | succ k ih => rw [divideFrom, ih (by omega), divideBit_modByMonic hP (by omega) (by omega)]

/-- The checksum does not see bit 8 of the polynomial; with it set, the scan leaves the remainder itself (R105, R107). -/
theorem toPoly_crc8 {n : Nat} (hn : 8 ≤ n) (v : BitVec n) (P : Poly) :
    toPoly (crc8 v n P) = toPoly v %ₘ generator P := by
  rw [← crc8_or_topBit, ← generator_or_topBit]
  have hP : (P ||| 0x100).getLsbD 8 = true := by simp
  generalize P ||| 0x100 = Q at hP
  have hlt := divide_lt_of_top n hP hn v.isLt
  calc toPoly (crc8 v n Q)
      = toPoly (divide v n Q) := by rw [← toPoly_setWidth hn, crc8, setWidth_lowByte hlt]
    _ = toPoly (divide v n Q) %ₘ generator Q := (toPoly_modByMonic_of_lt hlt Q).symm
    _ = toPoly v %ₘ generator Q := divideFrom_modByMonic hP (by omega) v

/-- Settles O35: the checksum is the remainder of `v(x)`, and leading zero bits leave `v(x)` what it is. -/
theorem checksumIsPolynomialRemainder : Obligations.ChecksumIsPolynomialRemainder := by
  unfold Obligations.ChecksumIsPolynomialRemainder
  refine ⟨fun n v P hn => ?_, fun n n' v P hn hle => ⟨?_, ?_⟩⟩
  · rw [← generator_eq_sum]
    exact toPoly_crc8 hn v P
  · apply toPoly_injective
    rw [toPoly_crc8 (hn.trans hle), toPoly_crc8 hn, toPoly_setWidth hle]
  · rw [← crc8_setWidth hle hn, BitVec.setWidth_setWidth_of_le _ hle, BitVec.setWidth_eq]

/-! ### The shift register -/

/-- One shift is the checksum of the register's value moved up one position. -/
theorem lfsrNext_eq_crc8 (r : Checksum) (P : Poly) : lfsrNext r P = crc8 (r.setWidth 9 <<< 1) 9 P := by
  have htop : (r.setWidth 9 <<< 1).getLsbD 8 = r.getLsbD 7 := by simp
  rw [lfsrNext, crc8, divide, divideFrom, divideFrom, divideBit, htop]
  cases r.getLsbD 7 <;> simp

theorem toPoly_lfsrNext (r : Checksum) (P : Poly) : toPoly (lfsrNext r P) = (toPoly r * X) %ₘ generator P := by
  rw [lfsrNext_eq_crc8, toPoly_crc8 (by decide), toPoly_setWidth_shiftLeft (by decide), pow_one]

/-- Horner's evaluation of `v(x) mod G(x)`, from any register value (R114). -/
theorem toPoly_serialFrom {w : Nat} (v : BitVec w) (P : Poly) (k : Nat) (r : Checksum) :
    toPoly (serialFrom v P k r) =
      (toPoly r * X ^ k + ∑ i ∈ Finset.range k, if v.getLsbD i then X ^ i else 0) %ₘ generator P := by
  induction k generalizing r with
  | zero => simp [serialFrom, toPoly_modByMonic_of_lt r.isLt]
  | succ k ih =>
    rw [serialFrom, ih, toPoly_xor, toPoly_lfsrNext, toPoly_bit]
    refine modByMonic_eq_of_dvd_sub (monic_generator P) ?_
    convert (dvd_modByMonic_sub (toPoly r * X) (generator P)).mul_right (X ^ k) using 1
    rw [Finset.sum_range_succ]
    split <;> ring

/-- Settles O40: both forms are the remainder of `v(x)`, and a polynomial of degree below 8 is one byte's. -/
theorem serialFormAgrees : Obligations.SerialFormAgrees := by
  unfold Obligations.SerialFormAgrees
  intro n v P hn
  apply toPoly_injective
  rw [serialCrc, toPoly_serialFrom, toPoly_crc8 hn]
  simp [toPoly]

end

end Sys2Proof.Machine

/-! The command `CRC` (R111 to R113): its acceptance, the micro-steps of a dividing phase, and the run of a division to its
end. -/

namespace Sys2Proof.Machine

/-! ### Acceptance and micro-steps -/

/-- Settles O15: the three cases of the command's rule at acceptance; a busy engine takes no command. -/
theorem crcStartsDivision : Obligations.CrcStartsDivision := by
  unfold Obligations.CrcStartsDivision
  refine ⟨rfl, fun s hbusy => ?_, fun s hidle => ?_⟩
  · rw [exec_eq, offerCommand_of_busy _ _ hbusy]
  · rw [exec_eq, offerCommand_idle _ _ hidle, ruleOf]
    rcases startCrc_cases s.engine with ⟨herr, h⟩ | ⟨herr, hlen, h⟩ | ⟨herr, hlen, h⟩ <;> rw [h]
    · exact ⟨fun _ => rfl, fun h0 => absurd h0 herr, fun h0 => absurd h0 herr⟩
    · exact ⟨fun hne => absurd herr hne, fun _ _ => rfl, fun _ h8 => absurd hlen (by omega)⟩
    · exact ⟨fun hne => absurd herr hne, fun _ hlt => absurd hlen (by omega), fun _ _ => rfl⟩

/-- Settles O41: R42(iii) puts `POS` where `DIVSTEP` has its requirement. -/
theorem dividingPhaseTakesDivstep : Obligations.DividingPhaseTakesDivstep := by
  unfold Obligations.DividingPhaseTakesDivstep
  intro n ready g hl hp hpos
  obtain ⟨hge, hlt, -⟩ := hl.dividing hp
  have hne : g.pos.toNat ≠ 7 := BitVec.toNat_ne.1 hpos
  exact engineStep_of_microStep (.divide hp hpos (by omega) hlt)

/-- Settles O42: at `POS = 7` each dividing phase has an ending of its own among the micro-steps. -/
theorem dividingPhaseEnds : Obligations.DividingPhaseEnds := by
  unfold Obligations.DividingPhaseEnds
  intro n ready g hpos
  exact ⟨fun hp => engineStep_of_microStep (.crcEnds hp hpos), fun hp => engineStep_of_microStep (.baseEnds hp hpos),
    fun hp => engineStep_of_microStep (.verifyEnds hp hpos)⟩

/-! ### A busy engine under a host that keeps off -/

section
variable {k : Nat} {s t : State}

/-- What the host drives is all that counts. -/
theorem hostKeepsOff_congr (h : s.inputs = t.inputs) : HostKeepsOff k s ↔ HostKeepsOff k t := by
  rw [HostKeepsOff, h]
  exact Iff.rfl

/-- A host that keeps off for `k + 1` steps keeps off in the first, and for `k` more after it. -/
theorem hostKeepsOff_succ : HostKeepsOff (k + 1) s ↔
    (resets s = false ∧ wordChanged s = false) ∧ HostKeepsOff k (consumeInputs s) := by
  simp only [HostKeepsOff, Nat.forall_lt_succ_left, List.drop_zero, consumeInputs_inputs, List.drop_tail]
  exact Iff.rfl

theorem step_of_microStep {g : Engine Config.nmax} (hbusy : s.engine.phase ≠ .idle) (hr : resets s = false)
    (hw : wordChanged s = false) (hs : MicroStep (currentInputs s).resReady s.engine g) :
    step s = .next (withEngine (consumeInputs s) g) := by
  have ha : accepts s = false := by
    rw [Bool.eq_false_iff, ne_eq, accepts_iff]
    exact fun ⟨_, _, hp⟩ => hbusy hp
  rw [step_of_not_accepts hr ha, hw, engineStep_of_microStep hs]
  rfl

theorem accepted_of_not_sEmit (hp : s.engine.phase ≠ .sEmit) : accepted s = none := if_neg fun h => hp h.1

end

/-! ### The run of a division -/

/-- The engine after `k` iterations of `DIVSTEP` and the last micro-step of `C_DIV` (R113). -/
def crcFinished {n : Nat} (k : Nat) (g : Engine n) : Engine n :=
  { g with crc := lowByte (divideFrom g.poly k g.acc), crcv := true, phase := .idle, acc := divideFrom g.poly k g.acc
           pos := 7 }

/-- From `POS = k + 7` the division of `C_DIV` ends after `k + 1` steps, with nothing accepted on the result channel. -/
theorem run_cDiv {k : Nat} {s : State} (hp : s.engine.phase = .cDiv) (hpos : s.engine.pos.toNat = k + 7)
    (hlt : s.engine.pos.toNat < s.engine.len.toNat) (hkeep : HostKeepsOff (k + 1) s) :
    core.run (k + 1) s =
        .next { s with engine := crcFinished k s.engine, inputs := s.inputs.drop (k + 1) } ∧
      trace (k + 1) s = [] := by
  induction k generalizing s with
  | zero =>
    obtain ⟨⟨hr, hw⟩, -⟩ := hostKeepsOff_succ.1 hkeep
    have hpos7 : s.engine.pos = 7 := BitVec.eq_of_toNat_eq hpos
    have hstep := step_of_microStep (by simp [hp]) hr hw (.crcEnds hp hpos7)
    rw [run_succ_of_next hstep, trace_succ_of_next hstep, accepted_of_not_sEmit (by simp [hp]), List.drop_one,
      crcFinished, ← hpos7]
    exact ⟨rfl, rfl⟩
  | succ k ih =>
    obtain ⟨⟨hr, hw⟩, hkeep'⟩ := hostKeepsOff_succ.1 hkeep
    have hne : s.engine.pos ≠ 7 := fun h7 => by simp [h7] at hpos
    have hpred : (s.engine.pos - 1).toNat = k + 7 := by rw [toNat_pred (by omega)]; omega
    have hstep := step_of_microStep (by simp [hp]) hr hw (.divide (.inl hp) hne (by omega) hlt)
    obtain ⟨hrun, htrace⟩ := ih
      (s := withEngine (consumeInputs s)
        { s.engine with acc := divideBit s.engine.poly s.engine.pos.toNat s.engine.acc, pos := s.engine.pos - 1 })
      hp hpred (by simp only [withEngine_engine, hpred]; omega) ((hostKeepsOff_congr rfl).1 hkeep')
    rw [run_succ_of_next hstep, trace_succ_of_next hstep, accepted_of_not_sEmit (by simp [hp]), hrun, htrace,
      withEngine_inputs, consumeInputs_inputs, List.drop_tail, hpos]
    exact ⟨rfl, rfl⟩

/-- Settles O43: the acceptance loads `DATA` at `POS = LEN - 1`, and the division runs from there to its end. -/
theorem crcCommandComputesChecksum : Obligations.CrcCommandComputesChecksum := by
  unfold Obligations.CrcCommandComputesChecksum
  intro s _ hidle herr hlen hkeep
  obtain ⟨-, -, hstart⟩ := crcStartsDivision
  obtain ⟨-, -, hloaded⟩ := hstart s hidle
  have hk : s.engine.len.toNat - 7 = s.engine.len.toNat - 8 + 1 := by omega
  have hpos : (s.engine.len - 1).toNat = s.engine.len.toNat - 8 + 7 := by rw [toNat_pred (by omega)]; omega
  rw [hk] at hkeep ⊢
  obtain ⟨hrun, htrace⟩ := run_cDiv
    (s := { s with engine := { s.engine with crcv := false, acc := s.engine.data, pos := s.engine.len - 1, phase := .cDiv } })
    rfl hpos (by simp only [hpos]; omega) ((hostKeepsOff_congr rfl).1 hkeep)
  exact ⟨_, hloaded herr hlen, hrun, htrace⟩

end Sys2Proof.Machine

/-! The checksum deltas (R120 to R122): both definitions are the remainder of `x^i`, and their values at the positions the
rules name. -/

namespace Sys2Proof.Machine

section
open Polynomial

theorem toPoly_twoPow {w i : Nat} (hi : i < w) : toPoly (BitVec.twoPow w i) = X ^ i := by
  ext j
  by_cases hij : i = j
  · subst hij; simp [hi]
  · simp [coeff_X_pow, hij, Ne.symm hij, BitVec.getLsbD_twoPow]

theorem toPoly_delta {n i : Nat} (hn : 8 ≤ n) (hi : i < n) (P : Poly) :
    toPoly (delta n i P) = X ^ i %ₘ generator P := by
  rw [delta, toPoly_crc8 hn, toPoly_twoPow hi]

/-- Each shift multiplies the remainder by `x` (R121). -/
theorem toPoly_deltaGen (P : Poly) (i : Nat) : toPoly (deltaGen P i) = X ^ i %ₘ generator P := by
  induction i with
  | zero =>
    have hone : toPoly (0x01 : Checksum) = X ^ 0 := toPoly_twoPow (w := 8) (i := 0) (by decide)
    rw [← hone, toPoly_modByMonic_of_lt (0x01 : Checksum).isLt, deltaGen]
  | succ i ih =>
    rw [deltaGen, toPoly_lfsrNext, ih, pow_succ]
    refine modByMonic_eq_of_dvd_sub (monic_generator P) ?_
    rw [← sub_mul]
    exact (dvd_modByMonic_sub _ _).mul_right X

end

theorem delta_eq_deltaGen {n i : Nat} (hn : 8 ≤ n) (hi : i < n) (P : Poly) : delta n i P = deltaGen P i :=
  toPoly_injective 8 ((toPoly_delta hn hi P).trans (toPoly_deltaGen P i).symm)

/-- Settles O44: both deltas are the remainder of `x^i`. -/
theorem deltaDefinitionsAgree : Obligations.DeltaDefinitionsAgree := by
  unfold Obligations.DeltaDefinitionsAgree
  exact fun n i P hn hi => delta_eq_deltaGen hn hi P

/-- A position of the trailing byte is not tested by the scan (R122). -/
theorem delta_of_lt {n i : Nat} (hn : 8 ≤ n) (hi : i < 8) (P : Poly) : delta n i P = BitVec.twoPow 8 i := by
  have hlt : (BitVec.twoPow n i).toNat < 2 ^ 8 := by
    rw [BitVec.toNat_twoPow]
    exact (Nat.mod_le _ _).trans_lt (Nat.pow_lt_pow_right (by decide) hi)
  rw [delta, crc8_of_lt n hlt, lowByte, setWidth_twoPow hn]

/-- The bit leaving at position 7 brings the polynomial in (R121). -/
theorem lfsrNext_topBit (P : Poly) : lfsrNext (BitVec.twoPow 8 7) P = lowByte P := by
  have hout : lowByte ((BitVec.twoPow 8 7).setWidth 9 <<< 1) = 0 := by decide
  have hbit : (BitVec.twoPow 8 7).getLsbD 7 = true := by decide
  rw [lfsrNext, hbit, if_pos rfl, lowByte, BitVec.setWidth_xor, ← lowByte, hout]
  exact BitVec.zero_xor

theorem delta_eight {n : Nat} (hn : 9 ≤ n) (P : Poly) : delta n 8 P = lowByte P := by
  rw [delta_eq_deltaGen (by omega) (by omega), deltaGen, ← delta_eq_deltaGen (n := n) (by omega) (by omega),
    delta_of_lt (by omega) (by decide), lfsrNext_topBit]

theorem delta_eq_zero {n i : Nat} {P : Poly} (hP : lowByte P = 0) (hi : 8 ≤ i) : delta n i P = 0 := by
  rw [delta, crc8_congr_poly (Q := 0) _ _ hP, crc8_zero_poly]
  ext j hj
  simp [lowByte, BitVec.getLsbD_twoPow, show i ≠ j by omega]

/-- Settles O45: the scan tests no position below 8; the rest follows from the shift register and, for `P[7:0] = 0`, from the
checksum's being the low byte. -/
theorem deltaValues : Obligations.DeltaValues := by
  unfold Obligations.DeltaValues
  exact ⟨fun n i P hn hi => delta_of_lt hn hi P, fun n P hn => delta_eight hn P, by decide,
    fun n i P hP hi _ => delta_eq_zero hP hi⟩

/-- Settles O48, at a register as wide as the sequence. -/
theorem synIsFlippedChecksum : Obligations.SynIsFlippedChecksum := by
  unfold Obligations.SynIsFlippedChecksum
  exact fun n c P t hn ht => (crc8_flipBits le_rfl hn P c ht).symm

/-- A table filled with the deltas sums a pattern to what `syn` adds to the base checksum (R127, R144). -/
theorem tableSum_eq_deltaSum {n len : Nat} {P : Poly} {table : Vector Checksum n} {t : List Nat} (hlen : 8 ≤ len)
    (htable : ∀ i, i < len → table[i]? = some (deltaGen P i)) (ht : ∀ i ∈ t, i < len) :
    tableSum table t = some (deltaSum len P t) := by
  induction t with
  | nil => rfl
  | cons i t ih =>
    have hi : i < len := ht i (by simp)
    rw [tableSum, htable i hi, ih fun j hj => ht j (by simp [hj]), deltaSum, delta_eq_deltaGen hlen hi]

end Sys2Proof.Machine

/-! What the working registers stand for (R123, R128, R145): each part of `Exact` over a micro-step, then over a command and a
step. -/

namespace Sys2Proof.Machine

/-! ### Divisions -/

/-- One iteration takes the scan from position `pos` to the next below (R101, R110). -/
theorem divideFrom_divideBit {w : Nat} (P : Poly) {pos : Count} (hpos : 8 ≤ pos.toNat) (a : BitVec w) :
    divideFrom P ((pos - 1).toNat - 7) (divideBit P pos.toNat a) = divideFrom P (pos.toNat - 7) a := by
  obtain ⟨k, hk⟩ : ∃ k, pos.toNat = k + 8 := ⟨pos.toNat - 8, by omega⟩
  rw [toNat_pred (by omega), hk]
  rfl

/-- A division is loaded at its first position (R101, R111, R142, R144). -/
theorem divideFrom_loaded {w : Nat} (P : Poly) {len : Count} (hlen : 8 ≤ len.toNat) (v : BitVec w) :
    divideFrom P ((len - 1).toNat - 7) v = divide v len.toNat P := by
  rw [toNat_pred (by omega), divide]
  congr 1

/-- At `POS = 7` no position is left, and the low byte is the checksum (R112, R143, R145). -/
theorem lowByte_eq_crc8 {w len : Nat} {P : Poly} {pos : Count} {a v : BitVec w} (hpos : pos = 7)
    (h : divideFrom P (pos.toNat - 7) a = divide v len P) : lowByte a = crc8 v len P := by
  subst hpos
  exact congrArg lowByte h

/-! ### Micro-steps -/

section
variable {n : Nat} {ready : Bool} {g h : Engine n}

/-- What `S_EVAL` adds to `BASE` is the delta sum of the pattern (R127, R144). -/
theorem Legal.tableSum_eq (hl : Legal g) (hp : Searching g.phase) :
    tableSum g.delta (patternOf g) = some (deltaSum g.len.toNat g.poly (patternOf g)) := by
  obtain ⟨-, -, hlt⟩ := hl.searching hp
  exact tableSum_eq_deltaSum (hl.len_ge fun hidle => by simp [hidle] at hp) (hl.filled (.inr hp)) hlt

theorem MicroStep.exact_dividing (hs : MicroStep ready g h) (hl : Legal g) (hx : Exact g)
    (hp' : h.phase = .cDiv ∨ h.phase = .sBase) :
    divideFrom h.poly (h.pos.toNat - 7) h.acc = Machine.divide h.data h.len.toNat h.poly := by
  cases hs
  case divide hp hpos hge hlt => exact (divideFrom_divideBit _ hge _).trans (hx.dividing hp')
  case filled hp _ => exact divideFrom_loaded _ (hl.len_ge (by simp [hp])) _
  -- No other case ends in one of these phases.
  all_goals simp_all

theorem MicroStep.exact_based (hs : MicroStep ready g h) (hx : Exact g) (hp' : Searching h.phase) :
    h.base = crc8 h.data h.len.toNat h.poly := by
  cases hs
  case baseEnds hp hpos => exact lowByte_eq_crc8 hpos (hx.dividing (.inr hp))
  -- These three do not end in a phase of the search.
  case fill => simp_all
  case filled => simp_all
  case searchEnds => simp_all
  -- The others go on in the search with the base checksum as it is.
  all_goals exact hx.based (by simp_all)

theorem MicroStep.exact_matched (hs : MicroStep ready g h) (hl : Legal g) (hx : Exact g)
    (hp' : h.phase = .sVerify ∨ h.phase = .sEmit) :
    h.cand = flipBits h.data (patternOf h) ∧ syn h.len.toNat h.base (patternOf h) h.poly = h.expected := by
  cases hs
  case evalMatch d hp he hd hmatch =>
    have hsum := hl.tableSum_eq (.inl hp)
    rw [hd, Option.some_inj] at hsum
    exact ⟨rfl, by rw [← hmatch, hsum]; rfl⟩
  case divide => exact hx.matched hp'
  case verifyEnds hp _ => exact hx.matched (.inl hp)
  case hold => exact hx.matched hp'
  -- No other case ends in one of these phases.
  all_goals simp_all

theorem MicroStep.exact_verifying (hs : MicroStep ready g h) (hl : Legal g) (hx : Exact g) (hp' : h.phase = .sVerify) :
    divideFrom h.poly (h.pos.toNat - 7) h.acc = Machine.divide h.cand h.len.toNat h.poly := by
  cases hs
  case divide hp hpos hge hlt => exact (divideFrom_divideBit _ hge _).trans (hx.verifying hp')
  case evalMatch hp _ _ _ => exact divideFrom_loaded _ (hl.len_ge (by simp [hp])) _
  -- No other case ends in `S_VERIFY`.
  all_goals simp_all

theorem MicroStep.exact_held (hs : MicroStep ready g h) (hx : Exact g) (hp' : h.phase = .sEmit) :
    h.resCw = h.cand ∧ h.resCrc = crc8 h.cand h.len.toNat h.poly := by
  cases hs
  case verifyEnds hp hpos => exact ⟨rfl, lowByte_eq_crc8 hpos (hx.verifying hp)⟩
  case hold => exact hx.held hp'
  -- No other case ends in `S_EMIT`.
  all_goals simp_all

/-- A micro-step keeps what the working registers stand for. -/
theorem MicroStep.exact (hs : MicroStep ready g h) (hl : Legal g) (hx : Exact g) : Exact h where
  dividing := hs.exact_dividing hl hx
  based := hs.exact_based hx
  matched := hs.exact_matched hl hx
  verifying := hs.exact_verifying hl hx
  held := hs.exact_held hx

/-! ### Commands and steps -/

theorem exact_startCrc (hp : g.phase = .idle) : Exact (startCrc g) := by
  rcases startCrc_cases g with ⟨-, h⟩ | ⟨-, -, h⟩ | ⟨-, hlen, h⟩ <;> rw [h]
  · exact exact_of_idle hp
  · exact exact_of_idle hp
  · exact
      { dividing := fun _ => divideFrom_loaded _ hlen _
        based := by simp
        matched := by simp
        verifying := by simp
        held := by simp }

theorem exact_startSolve (hp : g.phase = .idle) : Exact (startSolve g) := by
  rcases startSolve_cases g with ⟨-, h⟩ | ⟨-, -, h⟩ | ⟨-, -, h⟩ <;> rw [h]
  · exact exact_of_idle hp
  · exact exact_of_idle hp
  · exact { dividing := by simp, based := by simp, matched := by simp, verifying := by simp, held := by simp }

end

theorem exact_ruleOf {g : Engine Config.nmax} (hp : g.phase = .idle) (i : Instr) : Exact (ruleOf i g) := by
  cases i with
  | crc => exact exact_startCrc hp
  | solve => exact exact_startSolve hp
  -- Every other command leaves the engine idle.
  | _ => exact exact_of_idle (by simpa [ruleOf] using hp)

theorem exact_wordRule {g : Engine Config.nmax} (hp : g.phase = .idle) (w : CmdWord) : Exact (wordRule w g) :=
  wordRule_induction (p := fun f => Exact (f g)) w (exact_ruleOf hp) (exact_of_idle (by simpa using hp))

/-- Settles O29: an idle engine has nothing to stand for, an accepted command loads what it names, and every micro-step keeps
it. -/
theorem stepKeepsExact : Obligations.StepKeepsExact := by
  unfold Obligations.StepKeepsExact
  intro s t hl hx hstep
  rcases step_engine_cases hstep with ⟨-, ht⟩ | ⟨-, hp, ht⟩ | ⟨-, -, hengine⟩
  · rw [ht]; exact exact_of_idle rfl
  · rw [ht]; exact exact_wordRule hp _
  · exact (microStep_of_engineStep hengine).exact hl hx

end Sys2Proof.Machine

/-! `Comb(n, e)` (R126): its members, order, number and ends, each over the positions from `lo` on as `combFrom` recurses. -/

namespace Sys2Proof.Machine

theorem mem_combFrom {m lo e : Nat} {t : List Nat} :
    t ∈ combFrom m lo e ↔ t.length = e ∧ t.Pairwise (· < ·) ∧ ∀ i ∈ t, lo ≤ i ∧ i < lo + m := by
  induction m, lo, e using combFrom.induct generalizing t with
  | case1 => cases t <;> simp [combFrom]
  | case2 lo e => cases t <;> simp [combFrom]
  | case3 m lo e ihwith ihwithout =>
    rw [combFrom, List.mem_append, List.mem_map, ihwithout]
    simp only [ihwith]
    constructor
    · rintro (⟨u, ⟨hlen, hasc, hu⟩, rfl⟩ | ⟨hlen, hasc, hu⟩)
      · refine ⟨by simp [hlen], List.pairwise_cons.2 ⟨fun i hi => (hu i hi).1, hasc⟩, fun i hi => ?_⟩
        rcases List.mem_cons.1 hi with rfl | hi
        · omega
        · have := hu i hi; omega
      · exact ⟨hlen, hasc, fun i hi => by have := hu i hi; omega⟩
    · rintro ⟨hlen, hasc, hrange⟩
      cases t with
      | nil => simp at hlen
      | cons x u =>
        obtain ⟨hx, hu⟩ := List.forall_mem_cons.1 hrange
        obtain ⟨hfirst, hasc'⟩ := List.pairwise_cons.1 hasc
        rcases Nat.eq_or_lt_of_le hx.1 with rfl | hlt
        · exact .inl ⟨u, ⟨by simpa using hlen, hasc', fun i hi => by have := hfirst i hi; have := hu i hi; omega⟩, rfl⟩
        · refine .inr ⟨hlen, hasc, List.forall_mem_cons.2 ⟨by omega, fun i hi => ?_⟩⟩
          have := hfirst i hi
          have := hu i hi
          omega

theorem mem_comb {n e : Nat} {t : List Nat} : t ∈ comb n e ↔ t.length = e ∧ Pattern n t := by
  simp [comb, mem_combFrom]

theorem lex_combFrom (m lo e : Nat) : (combFrom m lo e).Pairwise (List.Lex (· < ·)) := by
  induction m, lo, e using combFrom.induct with
  | case1 => simp [combFrom]
  | case2 => simp [combFrom]
  | case3 m lo e ihwith ihwithout =>
    rw [combFrom, List.pairwise_append, List.pairwise_map]
    refine ⟨ihwith.imp .cons, ihwithout, fun t ht u hu => ?_⟩
    obtain ⟨t, -, rfl⟩ := List.mem_map.1 ht
    obtain ⟨hlen, -, hrange⟩ := mem_combFrom.1 hu
    cases u with
    | nil => simp at hlen
    | cons y u => exact .rel (hrange y (by simp)).1

theorem length_combFrom (m lo e : Nat) : (combFrom m lo e).length = m.choose e := by
  induction m, lo, e using combFrom.induct with
  | case1 => simp [combFrom]
  | case2 => simp [combFrom]
  | case3 m lo e ihwith ihwithout => simp [combFrom, ihwith, ihwithout, Nat.choose_succ_succ]

theorem combFrom_eq_nil {m e : Nat} (h : m < e) (lo : Nat) : combFrom m lo e = [] :=
  List.eq_nil_of_length_eq_zero (by rw [length_combFrom, Nat.choose_eq_zero_of_lt h])

theorem head?_combFrom {m e : Nat} (h : e ≤ m) (lo : Nat) : (combFrom m lo e).head? = some (List.range' lo e) := by
  induction m, lo, e using combFrom.induct with
  | case1 => simp [combFrom]
  | case2 => simp at h
  | case3 m lo e ihwith _ => simp [combFrom, ihwith (by omega), List.range'_succ]

theorem getLast?_combFrom {m e : Nat} (h : e ≤ m) (lo : Nat) :
    (combFrom m lo e).getLast? = some (List.range' (lo + m - e) e) := by
  induction m, lo, e using combFrom.induct with
  | case1 => simp [combFrom]
  | case2 => simp at h
  | case3 m lo e ihwith ihwithout =>
    rw [combFrom, List.getLast?_append]
    rcases Nat.lt_or_ge m (e + 1) with hlt | hle
    · obtain rfl : m = e := by omega
      have hlo : lo + (m + 1) - (m + 1) = lo := by omega
      have hlo' : lo + 1 + m - m = lo + 1 := by omega
      simp [combFrom_eq_nil hlt, List.getLast?_map, ihwith le_rfl, hlo, hlo', List.range'_succ]
    · have hlo : lo + 1 + m - (e + 1) = lo + (m + 1) - (e + 1) := by omega
      simp [ihwithout hle, hlo]

/-- Settles O46: the tuples that start with the first position come before all others, and each part is a shorter `combFrom`. -/
theorem combIsLexicographic : Obligations.CombIsLexicographic := by
  unfold Obligations.CombIsLexicographic
  intro n e
  refine ⟨by decide, fun t => mem_comb, lex_combFrom n 0 e, length_combFrom n 0 e, by simp [comb, combFrom],
    fun h => combFrom_eq_nil h 0, fun h => ⟨?_, ?_⟩⟩
  · rw [comb, head?_combFrom h, List.range_eq_range']
  · rw [comb, getLast?_combFrom h, Nat.zero_add]

end Sys2Proof.Machine

/-! The successor step (R147): what it does to a tuple by its first entry, and that it walks `Comb(n, e)` (R148). -/

namespace Sys2Proof.Machine

/-! ### Growing a tuple -/

/-- Entry `j` grows by 1 and those to its right follow it consecutively (R147). -/
theorem raiseAt_eq {t : List Nat} {j : Nat} (hj : j < t.length) :
    raiseAt t j = t.take j ++ List.range' (t[j] + 1) (t.length - j) := by
  apply List.ext_getElem
  · simp [raiseAt_length]; omega
  · intro k hk _
    by_cases hkj : k < j <;> simp [raiseAt_getElem hj, List.getElem_append, hkj, hj.le]

theorem canGrow_cons_succ (n x : Nat) (t : List Nat) (j : Nat) : canGrow n (x :: t) (j + 1) = canGrow n t j := by
  simp only [canGrow, List.getElem?_cons_succ, List.length_cons, ← Nat.add_assoc, Nat.add_lt_add_iff_right]

theorem canGrow_cons_zero (n x : Nat) (t : List Nat) : canGrow n (x :: t) 0 = decide (x + t.length + 1 < n) := rfl

theorem growIndex_cons (n x : Nat) (t : List Nat) :
    growIndex n (x :: t) =
      ((growIndex n t).map (· + 1)).or (if x + t.length + 1 < n then some 0 else none) := by
  have hgrow : canGrow n (x :: t) ∘ Nat.succ = canGrow n t := funext (canGrow_cons_succ n x t)
  rw [growIndex, List.length_cons, List.range_succ_eq_map, List.reverse_cons, List.find?_append, ← List.map_reverse,
    List.find?_map, hgrow, List.find?_singleton, canGrow_cons_zero]
  simp [growIndex]

/-- A tuple grows in its tail if it can, else at its first entry, else not at all (R147). -/
theorem successor_cons (n x : Nat) (t : List Nat) :
    successor n (x :: t) =
      ((successor n t).map (x :: ·)).or
        (if x + t.length + 1 < n then some (List.range' (x + 1) (t.length + 1)) else none) := by
  rw [successor, growIndex_cons, successor]
  cases h : growIndex n t with
  | none => split <;> simp [raiseAt_eq]
  | some j =>
    obtain ⟨hj, -⟩ := growIndex_some h
    simp [raiseAt_eq, hj]

/-! ### Walking a tier -/

/-- Where a suffix of an appended list begins. -/
theorem cons_suffix_append {α : Type} {a : α} {todo l₁ l₂ : List α} (h : a :: todo <:+ l₁ ++ l₂) :
    a :: todo <:+ l₂ ∨ ∃ ts, a :: ts <:+ l₁ ∧ todo = ts ++ l₂ := by
  obtain ⟨pre, hpre⟩ := h
  rcases List.append_eq_append_iff.1 hpre with ⟨mid, hl₁, hmid⟩ | ⟨mid, hpre, hl₂⟩
  · cases mid with
    | nil => exact .inl ⟨[], hmid⟩
    | cons b ts =>
      obtain ⟨rfl, rfl⟩ := List.cons.inj hmid
      exact .inr ⟨ts, ⟨pre, hl₁.symm⟩, rfl⟩
  · exact .inl ⟨mid, hl₂.symm⟩

/-- From each tuple the successor step goes to the one enumerated after it, and from the last to none (R148). -/
theorem successor_eq_head? {m lo e : Nat} {t : List Nat} {ts : List (List Nat)} (h : t :: ts <:+ combFrom m lo e) :
    successor (lo + m) t = ts.head? := by
  induction m, lo, e using combFrom.induct generalizing t ts with
  | case1 m lo =>
    obtain ⟨rfl, rfl⟩ : t = [] ∧ ts = [] := by simpa [combFrom, List.suffix_cons_iff] using h
    rfl
  | case2 lo e => simp [combFrom] at h
  | case3 m lo e ihwith ihwithout =>
    have hm : lo + (m + 1) = lo + 1 + m := by omega
    rw [hm]
    rcases cons_suffix_append h with h | ⟨us, hus, rfl⟩
    · exact ihwithout h
    -- The tuple starts with `lo`: the tail has a successor unless it is the last of its tier.
    · obtain ⟨vs, hvs, hmap⟩ := List.suffix_map_iff.1 hus
      obtain ⟨u, vs, rfl, rfl, rfl⟩ := List.map_eq_cons_iff.1 hmap.symm
      have hlen : u.length = e := (mem_combFrom.1 (hvs.mem (by simp))).1
      rw [successor_cons, ihwith hvs, List.head?_append, List.head?_map, hlen]
      congr 1
      split
      case isTrue hlt => rw [head?_combFrom (by omega)]
      case isFalse hge => rw [combFrom_eq_nil (by omega), List.head?_nil]

/-- Settles O47: the list from its `k`-th member on is a suffix. -/
theorem successorIsNextCombination : Obligations.SuccessorIsNextCombination := by
  unfold Obligations.SuccessorIsNextCombination
  intro n e k t hk
  obtain ⟨hlt, ht⟩ := List.getElem?_eq_some_iff.1 hk
  have hsuffix : t :: (comb n e).drop (k + 1) <:+ combFrom n 0 e := by
    rw [← ht, ← List.drop_eq_getElem_cons hlt]
    exact List.drop_suffix k _
  have hnext := successor_eq_head? hsuffix
  rwa [Nat.zero_add, List.head?_drop] at hnext

end Sys2Proof.Machine

/-! `Solve` as one list of patterns (R124, R130): its results are those patterns of the tiers `0 .. min(m, n)` that match, so
what it reports follows from what a pattern flips. -/

namespace Sys2Proof.Machine

/-! ### The patterns of a search -/

/-- Every pattern a search of bound `m` evaluates, in order (R124, R137). -/
def patterns (n m : Nat) : List (List Nat) := (List.range (min m n + 1)).flatMap (comb n)

theorem solve_eq_resultsOf {w : Nat} (c : BitVec w) (n : Nat) (P : Poly) (m : Nat) (x : Checksum) :
    solve c n P m x = resultsOf c n P x (patterns n m) := by
  rw [solve, patterns, resultsOf, List.filter_flatMap, List.map_flatMap]
  rfl

theorem length_patterns (n m : Nat) : (patterns n m).length = patternCount n m := List.length_flatMap

theorem mem_patterns {n m : Nat} {t : List Nat} : t ∈ patterns n m ↔ t.length ≤ min m n ∧ Pattern n t := by
  simp only [patterns, List.mem_flatMap, List.mem_range, Nat.lt_succ_iff, mem_comb]
  constructor
  · rintro ⟨e, he, rfl, ht⟩
    exact ⟨he, ht⟩
  · rintro ⟨hlen, ht⟩
    exact ⟨t.length, hlen, rfl, ht⟩

theorem nodup_comb (n e : Nat) : (comb n e).Nodup := by
  refine (lex_combFrom n 0 e).imp ?_
  rintro t _ hlex rfl
  exact List.lex_irrefl Nat.lt_irrefl t hlex

theorem nodup_patterns (n m : Nat) : (patterns n m).Nodup := by
  refine List.nodup_flatMap.2 ⟨fun e _ => nodup_comb n e, List.nodup_range.imp fun hne t ht ht' => hne ?_⟩
  rw [← (mem_comb.1 ht).1, ← (mem_comb.1 ht').1]

/-! ### The results of a list of patterns -/

section
variable {w : Nat} (c : BitVec w) (n : Nat) (P : Poly) (x : Checksum)

@[simp] theorem resultsOf_nil : resultsOf c n P x [] = [] := rfl

theorem resultsOf_cons (t : List Nat) (ts : List (List Nat)) :
    resultsOf c n P x (t :: ts) =
      if syn n (crc8 c n P) t P = x then (flipBits c t, crc8 (flipBits c t) n P) :: resultsOf c n P x ts
      else resultsOf c n P x ts := by
  by_cases h : syn n (crc8 c n P) t P = x <;> simp [resultsOf, h]

end

/-! ### What a pattern flips -/

theorem xor_xor_cancel {w : Nat} (a b : BitVec w) : a ^^^ (b ^^^ a) = b := by
  rw [BitVec.xor_comm b, ← BitVec.xor_assoc, BitVec.xor_self, BitVec.zero_xor]

/-- The positions of the set bits of a value, the pattern it masks. -/
def positions {w : Nat} (v : BitVec w) : List Nat := (List.range w).filter fun i => v.getLsbD i

section
variable {w : Nat}

theorem length_positions (v : BitVec w) : (positions v).length = weight v := rfl

theorem pattern_positions (v : BitVec w) : Pattern w (positions v) :=
  ⟨List.pairwise_lt_range.filter _, fun _ hi => List.mem_range.1 (List.mem_filter.1 hi).1⟩

theorem flipMask_positions (v : BitVec w) : flipMask w (positions v) = v := by
  ext i hi
  rw [← BitVec.getLsbD_eq_getElem, getLsbD_flipMask _ hi]
  simp [positions, hi]

theorem flipBits_positions (c v : BitVec w) : flipBits c (positions (v ^^^ c)) = v := by
  rw [flipBits, flipMask_positions, xor_xor_cancel]

/-- Different patterns flip different bits (R125). -/
theorem flipMask_injOn {t u : List Nat} (ht : Pattern w t) (hu : Pattern w u) (h : flipMask w t = flipMask w u) :
    t = u := by
  have hperm : t.Perm u := (List.perm_ext_iff_of_nodup ht.nodup hu.nodup).2 fun i => by
    by_cases hi : i < w
    · have hbit := congrArg (fun v : BitVec w => v.getLsbD i) h
      simpa [getLsbD_flipMask _ hi] using hbit
    · exact ⟨fun hmem => absurd (ht.2 i hmem) hi, fun hmem => absurd (hu.2 i hmem) hi⟩
  exact hperm.eq_of_pairwise (fun a b _ _ hab hba => absurd (hab.trans hba) (lt_irrefl a)) ht.1 hu.1

theorem flipBits_injOn {c : BitVec w} {t u : List Nat} (ht : Pattern w t) (hu : Pattern w u)
    (h : flipBits c t = flipBits c u) : t = u :=
  flipMask_injOn ht hu (by rw [← flipBits_xor_self c t, h, flipBits_xor_self])

@[simp] theorem flipBits_nil (c : BitVec w) : flipBits c [] = c := by
  rw [flipBits, flipMask]; exact BitVec.xor_zero

end

/-! ### What `Solve` reports -/

section
variable {n m : Nat} {c : BitVec n} {P : Poly} {x : Checksum}

/-- A result is a pattern's: the flipped codeword and its checksum, the expected one (R127, R128). -/
theorem mem_resultsOf (hn : 8 ≤ n) {ts : List (List Nat)} (hts : ∀ t ∈ ts, Pattern n t) {r : BitVec n × Checksum} :
    r ∈ resultsOf c n P x ts ↔ ∃ t ∈ ts, crc8 (flipBits c t) n P = x ∧ r = (flipBits c t, x) := by
  simp only [resultsOf, List.mem_map, List.mem_filter, beq_iff_eq]
  constructor
  · rintro ⟨t, ⟨ht, hsyn⟩, rfl⟩
    rw [← crc8_flipBits le_rfl hn P c (hts t ht)] at hsyn
    exact ⟨t, ht, hsyn, by rw [hsyn]⟩
  · rintro ⟨t, ht, hcrc, rfl⟩
    exact ⟨t, ⟨ht, by rw [← crc8_flipBits le_rfl hn P c (hts t ht), hcrc]⟩, by rw [hcrc]⟩

theorem mem_solve (hn : 8 ≤ n) {r : BitVec n × Checksum} :
    r ∈ solve c n P m x ↔ ∃ t ∈ patterns n m, crc8 (flipBits c t) n P = x ∧ r = (flipBits c t, x) := by
  rw [solve_eq_resultsOf, mem_resultsOf hn fun t ht => (mem_patterns.1 ht).2]

/-- Different patterns give different codewords, so none is reported twice (R135). -/
theorem nodup_solve : ((solve c n P m x).map Prod.fst).Nodup := by
  rw [solve_eq_resultsOf, resultsOf, List.map_map]
  refine ((nodup_patterns n m).filter _).map_on fun t ht u hu h => ?_
  exact flipBits_injOn (mem_patterns.1 (List.mem_filter.1 ht).1).2 (mem_patterns.1 (List.mem_filter.1 hu).1).2 h

theorem mem_solve_of_weight_le (hn : 8 ≤ n) {v : BitVec n} (hcrc : crc8 v n P = x)
    (hweight : weight (v ^^^ c) ≤ min m n) : (v, x) ∈ solve c n P m x := by
  refine (mem_solve hn).2 ⟨positions (v ^^^ c), mem_patterns.2 ⟨hweight, pattern_positions _⟩, ?_⟩
  rw [flipBits_positions]
  exact ⟨hcrc, rfl⟩

end

/-- Settles O50: every match within the bound is the flip of the pattern of its differing bits, and of no other. -/
theorem solveReportsExactlyTheMatches : Obligations.SolveReportsExactlyTheMatches := by
  unfold Obligations.SolveReportsExactlyTheMatches
  intro n m c P x hn
  refine ⟨fun r hr => ?_, fun v hcrc hweight => ?_⟩
  · obtain ⟨t, ht, hcrc, rfl⟩ := (mem_solve hn).1 hr
    obtain ⟨hlen, hpat⟩ := mem_patterns.1 ht
    exact ⟨rfl, hcrc, by rw [flipBits_xor_self, weight_flipMask hpat]; exact hlen⟩
  · exact List.count_eq_one_of_mem nodup_solve (List.mem_map_of_mem (mem_solve_of_weight_le hn hcrc hweight))

/-! ### The bound -/

/-- Settles O49: both bounds end the search at tier `n`. -/
theorem boundAboveLengthIsLength : Obligations.BoundAboveLengthIsLength := by
  unfold Obligations.BoundAboveLengthIsLength
  intro n m c P x hm
  rw [solve, solve, min_eq_right hm, min_self]

section
variable {n : Nat} (c : BitVec n) (P : Poly) (x : Checksum)

theorem tierResults_zero : tierResults c n P x 0 = if crc8 c n P = x then [(c, x)] else [] := by
  have hsyn : syn n (crc8 c n P) [] P = crc8 c n P := BitVec.xor_zero
  rw [tierResults, comb, combFrom, resultsOf_cons, hsyn, resultsOf_nil, flipBits_nil]
  split
  case isTrue h => rw [h]
  case isFalse => rfl

/-- A bound raised by one adds the tier above, which is empty beyond `n` (R136(b)). -/
theorem solve_succ (k : Nat) : solve c n P (k + 1) x = solve c n P k x ++ tierResults c n P x (k + 1) := by
  rcases Nat.lt_or_ge k n with hlt | hge
  · rw [solve, solve, min_eq_left hlt, min_eq_left hlt.le, List.range_succ (n := k + 1), List.flatMap_append,
      List.flatMap_singleton]
  · have hempty : tierResults c n P x (k + 1) = [] := by
      rw [tierResults, comb, combFrom_eq_nil (by omega), resultsOf_nil]
    rw [hempty, List.append_nil, solve, solve, min_eq_right hge, min_eq_right (by omega)]

/-- One flipped bit of a matching codeword is found in tier 1 (R136(c)). -/
theorem mem_tierResults_one (hn : 8 ≤ n) {i : Nat} (hi : i < n) (hcrc : crc8 c n P = x) :
    (c, x) ∈ tierResults (c ^^^ BitVec.twoPow n i) n P x 1 := by
  have hflip : flipBits (c ^^^ BitVec.twoPow n i) [i] = c := by
    rw [flipBits, flipMask, flipMask]
    simp
  have hpat : Pattern n [i] := ⟨List.pairwise_singleton _ _, by simpa using hi⟩
  refine (mem_resultsOf hn fun t ht => (mem_comb.1 ht).2).2 ⟨[i], mem_comb.2 ⟨rfl, hpat⟩, ?_⟩
  rw [hflip]
  exact ⟨hcrc, rfl⟩

theorem tierResults_subset_solve {e m : Nat} (he : e ≤ min m n) : tierResults c n P x e ⊆ solve c n P m x :=
  fun _ hr => List.mem_flatMap.2 ⟨e, List.mem_range.2 (Nat.lt_succ_of_le he), hr⟩

end

/-- Settles O51: (a) is tier 0, (b) the tiers of the raised bound, (c) tier 1 at the flipped position. -/
theorem solveLaws : Obligations.SolveLaws := by
  unfold Obligations.SolveLaws
  intro n c P x hn
  refine ⟨?_, solve_succ c P x, fun i m hcrc hi hm => ?_⟩
  · rw [← tierResults_zero, solve, Nat.zero_min]
    simp
  · have hmem := mem_tierResults_one c P x hn hi hcrc
    exact ⟨hmem, tierResults_subset_solve _ P x (le_min hm (by omega)) hmem⟩

end Sys2Proof.Machine

/-! The micro-steps of the search as the rules write them (R140, R142, R144, R146, R147). -/

namespace Sys2Proof.Machine

/-! ### Acceptance and the delta table -/

/-- Settles O16: the three cases of the command's rule at acceptance; a busy engine takes no command. -/
theorem solveStartsDeltas : Obligations.SolveStartsDeltas := by
  unfold Obligations.SolveStartsDeltas
  refine ⟨rfl, fun s hbusy => ?_, fun s hidle => ?_⟩
  · rw [exec_eq, offerCommand_of_busy _ _ hbusy]
  · rw [exec_eq, offerCommand_idle _ _ hidle, ruleOf]
    rcases startSolve_cases s.engine with ⟨herr, h⟩ | ⟨herr, hlen, h⟩ | ⟨herr, hlen, h⟩ <;> rw [h]
    · exact ⟨fun _ => rfl, fun h0 => absurd h0 herr, fun h0 => absurd h0 herr⟩
    · exact ⟨fun hne => absurd herr hne, fun _ _ => rfl, fun _ h8 => absurd hlen (by omega)⟩
    · exact ⟨fun hne => absurd herr hne, fun _ hlt => absurd hlen (by omega), fun _ _ => rfl⟩

/-- Settles O52: the table has room for every position below `LEN`. -/
theorem deltaPhaseStep : Obligations.DeltaPhaseStep := by
  unfold Obligations.DeltaPhaseStep
  intro n ready g hl hp
  refine ⟨fun hlt => ?_, fun hle => engineStep_of_microStep (.filled hp hle)⟩
  have hn : g.di.toNat < n := hlt.trans_le hl.len_le
  exact ⟨_, engineStep_of_microStep (.fill hp hlt hn), Vector.getElem?_set_self hn,
    fun i hi => Vector.getElem?_set_ne hn hi.symm⟩

/-! ### The evaluation of a pattern -/

theorem foldl_xor_of_tableSum {n : Nat} {table : Vector Checksum n} {t : List Nat} {d : Checksum}
    (h : tableSum table t = some d) (b : Checksum) :
    (t.map fun i => table[i]?.getD 0).foldl (· ^^^ ·) b = b ^^^ d := by
  induction t generalizing b d with
  | nil =>
    obtain rfl : (0 : Checksum) = d := Option.some_inj.1 h
    exact BitVec.xor_zero.symm
  | cons i t ih =>
    cases hi : table[i]? with
    | none => simp [tableSum, hi] at h
    | some x =>
      cases ht : tableSum table t with
      | none => simp [tableSum, hi, ht] at h
      | some y =>
        obtain rfl : x ^^^ y = d := by simpa [tableSum, hi, ht] using h
        rw [List.map_cons, List.foldl_cons, ih ht, hi, Option.getD_some, BitVec.xor_assoc]

theorem foldl_or_twoPow {w : Nat} (t : List Nat) (a : BitVec w) :
    (t.map fun i => BitVec.twoPow w i).foldl (· ||| ·) a = a ||| flipMask w t := by
  induction t generalizing a with
  | nil => exact BitVec.or_zero.symm
  | cons i t ih => rw [List.map_cons, List.foldl_cons, ih, flipMask, BitVec.or_assoc]

/-- Settles O53: the two sums of R144 are the folds of the table entries and of the flipped bits. -/
theorem evalStepEvaluatesPattern : Obligations.EvalStepEvaluatesPattern := by
  unfold Obligations.EvalStepEvaluatesPattern
  intro n ready g hl hp s c
  obtain ⟨he, d, hd⟩ := hl.pattern_in_range (.inl hp)
  have hs : s = g.base ^^^ d := foldl_xor_of_tableSum hd g.base
  have hc : c = flipBits g.data (patternOf g) :=
    congrArg (g.data ^^^ ·) ((foldl_or_twoPow (patternOf g) 0).trans BitVec.zero_or)
  rw [hs, hc]
  exact ⟨fun hx => engineStep_of_microStep (.evalMatch d hp he hd hx),
    fun hx => engineStep_of_microStep (.evalMiss d hp he hd hx)⟩

/-! ### The next pattern -/

theorem canGrow_iff {len j : Nat} {t : List Nat} :
    canGrow len t j = true ↔ ∃ x, t[j]? = some x ∧ x + t.length < len + j := by
  unfold canGrow
  cases t[j]? <;> simp

/-- The rightmost entry that can grow is the one `growIndex` finds. -/
theorem growIndex_eq_some {len j : Nat} {t : List Nat} (hj : canGrow len t j = true)
    (hlast : ∀ k, j < k → ¬canGrow len t k = true) : growIndex len t = some j := by
  obtain ⟨x, hx, -⟩ := canGrow_iff.1 hj
  obtain ⟨hlt, -⟩ := List.getElem?_eq_some_iff.1 hx
  cases hfind : growIndex len t with
  | none => exact absurd hj (List.find?_eq_none.1 hfind j (by simpa using hlt))
  | some i =>
    obtain ⟨hi, pre, post, hsplit, hpre⟩ := List.find?_eq_some_iff_append.1 hfind
    -- The positions are searched in descending order: those passed over lie above `i`, the rest below it.
    have hdesc : (pre ++ i :: post).Pairwise (· > ·) := hsplit ▸ List.pairwise_reverse.2 List.pairwise_lt_range
    have hmem : j ∈ pre ++ i :: post := hsplit ▸ by simpa using hlt
    rcases List.mem_append.1 hmem with hmem | hmem
    · have := hpre j hmem
      simp [hj] at this
    · rcases List.mem_cons.1 hmem with rfl | hmem
      · rfl
      · obtain ⟨-, hdesc, -⟩ := List.pairwise_append.1 hdesc
        exact absurd hi (hlast i ((List.pairwise_cons.1 hdesc).1 j hmem))

/-- The tuple after one whose rightmost entry that can grow is entry `j` (R147). -/
theorem successor_eq_some {len j x : Nat} {t : List Nat} (hx : t[j]? = some x) (hgrow : x + t.length < len + j)
    (hlast : ∀ k y, j < k → t[k]? = some y → ¬y + t.length < len + k) :
    successor len t = some (t.take j ++ List.range' (x + 1) (t.length - j)) := by
  obtain ⟨hj, rfl⟩ := List.getElem?_eq_some_iff.1 hx
  have hindex : growIndex len t = some j :=
    growIndex_eq_some (canGrow_iff.2 ⟨_, hx, hgrow⟩) fun k hk hcan =>
      have ⟨y, hy, hlt⟩ := canGrow_iff.1 hcan
      hlast k y hk hy hlt
  rw [successor, hindex, Option.map_some, raiseAt_eq hj]

theorem successor_eq_none {len : Nat} {t : List Nat} (h : ∀ k y, t[k]? = some y → ¬y + t.length < len + k) :
    successor len t = none :=
  Option.map_eq_none_iff.2 <| List.find?_eq_none.2 fun k _ hcan =>
    have ⟨y, hy, hlt⟩ := canGrow_iff.1 hcan
    h k y hy hlt

/-- Entries of `IDX` beyond a stored pattern keep their value (R147). -/
theorem storePattern_getElem?_of_le {n : Nat} (idx : Vector Count n) {t : List Nat} {k : Nat} (hk : t.length ≤ k) :
    (storePattern idx t)[k]? = idx[k]? := by
  by_cases hn : k < n
  · rw [Vector.getElem?_eq_getElem hn, Vector.getElem?_eq_getElem hn, storePattern_getElem _ _ _ hn, dif_neg (by omega)]
  · rw [Vector.getElem?_eq_none (by omega), Vector.getElem?_eq_none (by omega)]

section
variable {n : Nat} {g : Engine n}

theorem Legal.length_patternOf (hl : Legal g) (hp : Searching g.phase) : (patternOf g).length = g.e.toNat := by
  obtain ⟨he, -⟩ := hl.pattern_in_range hp
  rw [patternOf_length, min_eq_left he]

end

/-- Settles O54: the tuple `IDX` then holds is the successor, or the first of the next tier, and it is read back. -/
theorem nextStepAdvancesPattern : Obligations.NextStepAdvancesPattern := by
  unfold Obligations.NextStepAdvancesPattern
  intro n ready g hl hp
  have hsearch : Searching g.phase := by simp [hp]
  obtain ⟨he, -⟩ := hl.pattern_in_range hsearch
  have hlen := hl.length_patternOf hsearch
  refine ⟨fun j x hx hgrow hlast => ?_, fun hnone => ?_⟩
  · have hnext := successor_eq_some hx (by rwa [hlen]) (by rwa [hlen])
    obtain ⟨-, hread⟩ := hl.pattern_grow hp hnext
    obtain ⟨hj, -⟩ := List.getElem?_eq_some_iff.1 hx
    refine ⟨_, engineStep_of_microStep (.grow _ hp he hnext), by rw [← hlen]; exact hread, fun k hk =>
      storePattern_getElem?_of_le _ ?_⟩
    rw [List.length_append, List.length_take, List.length_range']
    omega
  · have hnext : successor g.len.toNat (patternOf g) = none := successor_eq_none (by rwa [hlen])
    refine ⟨fun hend => engineStep_of_microStep (.searchEnds hp he hnext hend), fun ⟨hmax, hlast⟩ => ?_⟩
    obtain ⟨-, hle, hread⟩ := hl.pattern_nextTier hp hmax hlast
    have hn := hl.len_le
    exact ⟨_, engineStep_of_microStep (.nextTier hp (by omega) hnext hmax hlast), hread, fun k hk =>
      storePattern_getElem?_of_le _ (by rw [List.length_range]; exact hk)⟩

/-! ### The result handshake -/

/-- A step that takes no result is the same whatever `res_ready` is (R170). -/
theorem engineStep_of_not_resv {n : Nat} {g : Engine n} (hresv : g.resv = false) (ready ready' : Bool) :
    engineStep ready g = engineStep ready' g := by
  cases hp : g.phase <;> simp [engineStep, sEmitStep, hp, hresv]

/-- `res_ready` is no part of an offered word (R172). -/
theorem wordChanged_resReady {s : State} {p : Inputs} {ps : List Inputs} (hs : s.inputs = p :: ps) (ready : Bool) :
    wordChanged { s with inputs := { p with resReady := ready } :: ps } = wordChanged s := by
  simp only [wordChanged, hs]
  cases ps <;> rfl

theorem step_resReady_of_not_resv {s : State} {p : Inputs} {ps : List Inputs} (hresv : s.engine.resv = false)
    (hs : s.inputs = p :: ps) (ready : Bool) :
    step s = step { s with inputs := { p with resReady := ready } :: ps } := by
  simp only [step, cycle, wordChanged_resReady hs, currentInputs, consumeInputs, hs, List.headD_cons, List.tail_cons]
  rw [engineStep_of_not_resv hresv p.resReady ready]

/-- Settles O33: in `S_EMIT` the step is the hold or the release, and without a result `res_ready` decides nothing. -/
theorem resultIsHeldUntilAccepted : Obligations.ResultIsHeldUntilAccepted := by
  unfold Obligations.ResultIsHeldUntilAccepted
  refine ⟨fun s hp hr hready hw => ⟨?_, ?_⟩, fun s hp hresv hr hready hw => ⟨?_, ?_⟩,
    fun s p ps hresv hs => ⟨?_, ?_⟩⟩
  · exact step_of_microStep (by simp [hp]) hr hw (.hold hp (by simp [hready]))
  · simp [accepted, hready]
  · simp [accepted, hp, hresv, hready, hr]
  · exact step_of_microStep (by simp [hp]) hr hw (.release hp (by simp [hready, hresv]))
  · exact step_resReady_of_not_resv hresv hs false
  · simp [accepted, hresv]

end Sys2Proof.Machine

/-! The walk of a search through its patterns (R147, R148): `S_NEXT` goes from each pattern to the one enumerated after it, and
from the last it ends. -/

namespace Sys2Proof.Machine

/-- A suffix of a chained list of tiers begins inside one tier, and the tiers above it follow. -/
theorem cons_suffix_flatMap_range' {α : Type} (f : Nat → List α) {a : α} {todo : List α} {lo len : Nat}
    (h : a :: todo <:+ (List.range' lo len).flatMap f) :
    ∃ e ts, lo ≤ e ∧ e < lo + len ∧ a :: ts <:+ f e ∧
      todo = ts ++ (List.range' (e + 1) (lo + len - (e + 1))).flatMap f := by
  induction len generalizing lo with
  | zero => simp at h
  | succ len ih =>
    rw [List.range'_succ, List.flatMap_cons] at h
    rcases cons_suffix_append h with h | ⟨ts, hts, rfl⟩
    · obtain ⟨e, ts, hle, hlt, hts, rfl⟩ := ih h
      exact ⟨e, ts, by omega, by omega, hts, by rw [show lo + 1 + len = lo + (len + 1) by omega]⟩
    · exact ⟨lo, ts, le_rfl, by omega, hts, by rw [show lo + (len + 1) - (lo + 1) = len by omega]⟩

/-- Where a pattern stands in a search: the rest of its tier follows it, then every tier above. -/
theorem cons_suffix_patterns {n m : Nat} {t : List Nat} {todo : List (List Nat)} (h : t :: todo <:+ patterns n m) :
    t.length ≤ min m n ∧ ∃ ts, ts.head? = successor n t ∧
      todo = ts ++ (List.range' (t.length + 1) (min m n - t.length)).flatMap (comb n) := by
  rw [patterns, List.range_eq_range'] at h
  obtain ⟨e, ts, -, hlt, hts, rfl⟩ := cons_suffix_flatMap_range' _ h
  obtain rfl : t.length = e := (mem_comb.1 (hts.mem (by simp))).1
  have hnext := successor_eq_head? (lo := 0) hts
  rw [Nat.zero_add] at hnext
  exact ⟨by omega, ts, hnext.symm, by rw [show 0 + (min m n + 1) - (t.length + 1) = min m n - t.length by omega]⟩

section
variable {n m : Nat} {t : List Nat} {todo : List (List Nat)} (h : t :: todo <:+ patterns n m)
include h

theorem todo_of_successor {t' : List Nat} (ht : successor n t = some t') : ∃ rest, todo = t' :: rest := by
  obtain ⟨-, ts, hhead, rfl⟩ := cons_suffix_patterns h
  obtain ⟨us, rfl⟩ := List.head?_eq_some_iff.1 (hhead.trans ht)
  exact ⟨_, rfl⟩

/-- After the last tuple of a tier comes the first of the next. -/
theorem todo_of_nextTier (ht : successor n t = none) (hlt : t.length < min m n) :
    ∃ rest, todo = List.range (t.length + 1) :: rest := by
  obtain ⟨-, ts, hhead, rfl⟩ := cons_suffix_patterns h
  obtain rfl : ts = [] := List.head?_eq_none_iff.1 (hhead.trans ht)
  have hfirst : (comb n (t.length + 1)).head? = some (List.range (t.length + 1)) := by
    rw [comb, head?_combFrom (by omega), List.range_eq_range']
  obtain ⟨us, hus⟩ := List.head?_eq_some_iff.1 hfirst
  obtain ⟨k, hk⟩ : ∃ k, min m n - t.length = k + 1 := ⟨min m n - t.length - 1, by omega⟩
  rw [hk, List.range'_succ, List.flatMap_cons, hus]
  exact ⟨_, rfl⟩

theorem todo_of_lastTier (ht : successor n t = none) (heq : t.length = min m n) : todo = [] := by
  obtain ⟨-, ts, hhead, rfl⟩ := cons_suffix_patterns h
  obtain rfl : ts = [] := List.head?_eq_none_iff.1 (hhead.trans ht)
  rw [heq, Nat.sub_self]
  rfl

end

/-- The search starts at the empty pattern (R143). -/
theorem patterns_eq_cons (n m : Nat) : ∃ todo, patterns n m = [] :: todo := by
  rw [patterns, List.range_succ_eq_map, List.flatMap_cons, comb, combFrom]
  exact ⟨_, rfl⟩

end Sys2Proof.Machine

/-! The run of a `SOLVE` (R150): how many steps and which results an engine still owes at each point of the search, that every
step pays one step, and every acceptance one result, of them, and the run under any host that follows. -/

namespace Sys2Proof.Machine

/-! ### What an engine owes -/

section
variable {n : Nat} (g : Engine n)

/-- Every pattern of the search that the operands ask for. -/
def searchOf : List (List Nat) := patterns g.len.toNat g.maxerr.toNat

/-- The results of the patterns `ts` for the operands. -/
def resultsFor (ts : List (List Nat)) : List (BitVec n × Checksum) :=
  resultsOf g.data g.len.toNat g.poly g.expected ts

/-- The steps for the patterns `ts`: two each, and for each match a division and an acceptance (R211). -/
def stepsFor (ts : List (List Nat)) : Nat :=
  2 * ts.length + (resultsFor g ts).length * (g.len.toNat - 7) + (resultsFor g ts).length

/-- What is left of a `SOLVE` in each phase: `k` steps that are no waiting, and the results `R` still to be accepted. `todo` are
the patterns enumerated after the current one; `C_DIV` is no phase of a `SOLVE`. -/
def OwesIn (k : Nat) (R : List (BitVec n × Checksum)) : Phase → Prop
  | .idle => k = 0 ∧ R = []
  | .cDiv => False
  | .sDelta =>
    k = g.len.toNat - g.di.toNat + 1 + (g.len.toNat - 7) + stepsFor g (searchOf g) ∧ R = resultsFor g (searchOf g)
  | .sBase => k = g.pos.toNat - 6 + stepsFor g (searchOf g) ∧ R = resultsFor g (searchOf g)
  | .sEval => ∃ todo, patternOf g :: todo <:+ searchOf g ∧
      k = stepsFor g (patternOf g :: todo) ∧ R = resultsFor g (patternOf g :: todo)
  | .sVerify => ∃ todo, patternOf g :: todo <:+ searchOf g ∧
      k = g.pos.toNat - 6 + 2 + stepsFor g todo ∧ R = (g.cand, crc8 g.cand g.len.toNat g.poly) :: resultsFor g todo
  | .sEmit => ∃ todo, patternOf g :: todo <:+ searchOf g ∧
      k = 2 + stepsFor g todo ∧ R = (g.resCw, g.resCrc) :: resultsFor g todo
  | .sNext => ∃ todo, patternOf g :: todo <:+ searchOf g ∧ k = 1 + stepsFor g todo ∧ R = resultsFor g todo

/-- What the engine owes in the phase it is in. -/
def Owes (k : Nat) (R : List (BitVec n × Checksum)) : Prop := OwesIn g k R g.phase

end

section
variable {n k : Nat} {ready : Bool} {g h : Engine n} {R : List (BitVec n × Checksum)}

theorem Owes.at (ho : Owes g k R) {p : Phase} (hp : g.phase = p) : OwesIn g k R p := hp ▸ ho

theorem owes_of_phase {p : Phase} (hp : g.phase = p) (ho : OwesIn g k R p) : Owes g k R := by
  rwa [Owes, hp]

theorem resultsFor_cons_of_match {t : List Nat}
    (ht : syn g.len.toNat (crc8 g.data g.len.toNat g.poly) t g.poly = g.expected) (ts : List (List Nat)) :
    resultsFor g (t :: ts) =
      (flipBits g.data t, crc8 (flipBits g.data t) g.len.toNat g.poly) :: resultsFor g ts := by
  rw [resultsFor, resultsOf_cons, if_pos ht]; rfl

theorem resultsFor_cons_of_miss {t : List Nat}
    (ht : syn g.len.toNat (crc8 g.data g.len.toNat g.poly) t g.poly ≠ g.expected) (ts : List (List Nat)) :
    resultsFor g (t :: ts) = resultsFor g ts := by
  rw [resultsFor, resultsOf_cons, if_neg ht]; rfl

theorem stepsFor_cons_of_match {t : List Nat}
    (ht : syn g.len.toNat (crc8 g.data g.len.toNat g.poly) t g.poly = g.expected) (ts : List (List Nat)) :
    stepsFor g (t :: ts) = 3 + (g.len.toNat - 7) + stepsFor g ts := by
  simp only [stepsFor, resultsFor_cons_of_match ht, List.length_cons]
  ring

theorem stepsFor_cons_of_miss {t : List Nat}
    (ht : syn g.len.toNat (crc8 g.data g.len.toNat g.poly) t g.poly ≠ g.expected) (ts : List (List Nat)) :
    stepsFor g (t :: ts) = 2 + stepsFor g ts := by
  simp only [stepsFor, resultsFor_cons_of_miss ht, List.length_cons]
  ring

theorem stepsFor_nil : stepsFor g [] = 0 := by simp [stepsFor, resultsFor]

theorem stepsFor_cons_pos (t : List Nat) (ts : List (List Nat)) : 0 < stepsFor g (t :: ts) := by
  simp only [stepsFor, List.length_cons]
  omega

/-- A working engine owes a step. -/
theorem Owes.pos_of_busy (ho : Owes g k R) (hl : Legal g) (hb : g.phase ≠ .idle) : 0 < k := by
  cases hp : g.phase with
  | idle => exact absurd hp hb
  | cDiv => exact (ho.at hp).elim
  | sDelta => obtain ⟨rfl, -⟩ := ho.at hp; omega
  | sBase =>
    obtain ⟨rfl, -⟩ := ho.at hp
    obtain ⟨hge, -⟩ := hl.dividing (.inr (.inl hp))
    omega
  | sEval => obtain ⟨todo, -, rfl, -⟩ := ho.at hp; exact stepsFor_cons_pos _ _
  | sVerify => obtain ⟨todo, -, rfl, -⟩ := ho.at hp; omega
  | sEmit => obtain ⟨todo, -, rfl, -⟩ := ho.at hp; omega
  | sNext => obtain ⟨todo, -, rfl, -⟩ := ho.at hp; omega

/-! ### What a step pays -/

/-- What `S_EVAL` computes is the evaluation of the current pattern (R127, R144). -/
theorem Legal.base_xor_eq_syn (hl : Legal g) (hx : Exact g) (hp : Searching g.phase) {d : Checksum}
    (hd : tableSum g.delta (patternOf g) = some d) :
    g.base ^^^ d = syn g.len.toNat (crc8 g.data g.len.toNat g.poly) (patternOf g) g.poly := by
  obtain rfl := Option.some_inj.1 (hd.symm.trans (hl.tableSum_eq hp))
  rw [hx.based hp, syn]

/-- The acceptance of a result pays a step and that result (R170). -/
theorem Owes.release (ho : Owes g k R) (hp : g.phase = .sEmit) :
    ∃ k' R', k = k' + 1 ∧ R = (g.resCw, g.resCrc) :: R' ∧ Owes { g with resv := false, phase := .sNext } k' R' := by
  obtain ⟨todo, hsuffix, rfl, rfl⟩ := ho.at hp
  exact ⟨1 + stepsFor g todo, _, by omega, rfl, todo, hsuffix, rfl, rfl⟩

/-- A `DIVSTEP` of the search pays a step. -/
theorem Owes.divide (ho : Owes g k R) (hp : Dividing g.phase) (hge : 8 ≤ g.pos.toNat) :
    ∃ k', k = k' + 1 ∧ Owes { g with acc := divideBit g.poly g.pos.toNat g.acc, pos := g.pos - 1 } k' R := by
  have hpred := toNat_pred (c := g.pos) (by omega)
  rcases hp with hp | hp | hp
  · exact (ho.at hp).elim
  · obtain ⟨rfl, rfl⟩ := ho.at hp
    exact ⟨(g.pos - 1).toNat - 6 + stepsFor g (searchOf g), by omega, owes_of_phase hp ⟨rfl, rfl⟩⟩
  · obtain ⟨todo, hsuffix, rfl, rfl⟩ := ho.at hp
    exact ⟨(g.pos - 1).toNat - 6 + 2 + stepsFor g todo, by omega, owes_of_phase hp ⟨todo, hsuffix, rfl, rfl⟩⟩

/-- `S_NEXT` pays a step and goes to the pattern enumerated next, or ends the search after the last (R147, R148). -/
theorem Owes.next (ho : Owes g k R) (hl : Legal g) (hs : MicroStep ready g h) (hp : g.phase = .sNext) :
    ∃ k', k = k' + 1 ∧ Owes h k' R := by
  obtain ⟨todo, hsuffix, rfl, rfl⟩ := ho.at hp
  have hlen := hl.length_patternOf (by simp [hp])
  obtain ⟨hle, -⟩ := hl.searching (by simp [hp])
  cases hs
  case grow t _ he ht =>
    obtain ⟨rest, rfl⟩ := todo_of_successor hsuffix ht
    obtain ⟨-, hread⟩ := hl.pattern_grow hp ht
    refine ⟨stepsFor g (t :: rest), by omega, rest, ?_⟩
    rw [hread]
    exact ⟨(List.suffix_cons _ _).trans hsuffix, rfl, rfl⟩
  case nextTier _ he ht hm hl' =>
    obtain ⟨-, hlt, hread⟩ := hl.pattern_nextTier hp hm hl'
    obtain ⟨rest, rfl⟩ := todo_of_nextTier hsuffix ht (by omega)
    rw [hlen] at hsuffix ⊢
    refine ⟨stepsFor g (List.range (g.e.toNat + 1) :: rest), by omega, rest, ?_⟩
    rw [hread]
    exact ⟨(List.suffix_cons _ _).trans hsuffix, rfl, rfl⟩
  case searchEnds _ he ht hend =>
    have hlast : g.e.toNat = min g.maxerr.toNat g.len.toNat := by
      rcases hend with hend | hend <;> rw [hend] at hle ⊢ <;> omega
    obtain rfl := todo_of_lastTier hsuffix ht (hlen.trans hlast)
    exact ⟨0, by rw [stepsFor_nil], rfl, rfl⟩
  -- No other case starts in `S_NEXT`.
  all_goals simp_all

/-- Every micro-step of the search outside `S_EMIT` pays a step and no result. -/
theorem Owes.microStep (ho : Owes g k R) (hl : Legal g) (hx : Exact g) (hs : MicroStep ready g h)
    (hb : g.phase ≠ .idle) (hne : g.phase ≠ .sEmit) : ∃ k', k = k' + 1 ∧ Owes h k' R := by
  have hloaded := hl.loaded hb
  have hs' := hs
  cases hs with
  | wait hp => exact absurd hp hb
  | divide hp _ hge _ => exact ho.divide hp hge
  | crcEnds hp _ => exact (ho.at hp).elim
  | fill hp hlt hn =>
    obtain ⟨rfl, rfl⟩ := ho.at hp
    have hsucc := toNat_succ (c := g.di) (by have := g.len.isLt; omega)
    exact ⟨g.len.toNat - (g.di + 1).toNat + 1 + (g.len.toNat - 7) + stepsFor g (searchOf g), by omega,
      owes_of_phase hp ⟨rfl, rfl⟩⟩
  | filled hp hle =>
    obtain ⟨rfl, rfl⟩ := ho.at hp
    have hpred := toNat_pred (c := g.len) (by omega)
    exact ⟨(g.len - 1).toNat - 6 + stepsFor g (searchOf g), by omega, rfl, rfl⟩
  | baseEnds hp hpos =>
    obtain ⟨rfl, rfl⟩ := ho.at hp
    obtain ⟨todo, htodo⟩ := patterns_eq_cons g.len.toNat g.maxerr.toNat
    have hempty : patternOf { g with base := lowByte g.acc, e := 0, phase := .sEval } = [] := by simp [patternOf]
    have hpos' : g.pos.toNat = 7 := congrArg BitVec.toNat hpos
    refine ⟨stepsFor g (searchOf g), by omega, todo, ?_⟩
    rw [hempty, ← htodo]
    exact ⟨List.suffix_rfl, rfl, rfl⟩
  | evalMatch d hp he hd hmatch =>
    obtain ⟨todo, hsuffix, rfl, rfl⟩ := ho.at hp
    rw [hl.base_xor_eq_syn hx (.inl hp) hd] at hmatch
    have hpred := toNat_pred (c := g.len) (by omega)
    refine ⟨(g.len - 1).toNat - 6 + 2 + stepsFor g todo, ?_, todo, hsuffix, rfl, resultsFor_cons_of_match hmatch _⟩
    rw [stepsFor_cons_of_match hmatch]
    omega
  | evalMiss d hp he hd hmiss =>
    obtain ⟨todo, hsuffix, rfl, rfl⟩ := ho.at hp
    rw [hl.base_xor_eq_syn hx (.inl hp) hd] at hmiss
    refine ⟨1 + stepsFor g todo, ?_, todo, hsuffix, rfl, resultsFor_cons_of_miss hmiss _⟩
    rw [stepsFor_cons_of_miss hmiss]
    omega
  | verifyEnds hp hpos =>
    obtain ⟨todo, hsuffix, rfl, rfl⟩ := ho.at hp
    refine ⟨2 + stepsFor g todo, ?_, todo, hsuffix, rfl, ?_⟩
    · have hpos' : g.pos.toNat = 7 := congrArg BitVec.toNat hpos
      omega
    · rw [← lowByte_eq_crc8 hpos (hx.verifying hp)]; rfl
  | hold hp _ => exact absurd hp hne
  | release hp _ => exact absurd hp hne
  | grow _ hp _ _ => exact ho.next hl hs' hp
  | searchEnds hp _ _ _ => exact ho.next hl hs' hp
  | nextTier hp _ _ _ _ => exact ho.next hl hs' hp

end

/-! ### A machine in the search -/

/-- The host-written and status registers, which a search leaves alone (R150). -/
def SameOperands {n : Nat} (a b : Engine n) : Prop :=
  a.data = b.data ∧ a.len = b.len ∧ a.poly = b.poly ∧ a.maxerr = b.maxerr ∧ a.expected = b.expected ∧
    a.crc = b.crc ∧ a.crcv = b.crcv ∧ a.err = b.err

section
variable {n : Nat} {a b c : Engine n}

theorem SameOperands.refl (a : Engine n) : SameOperands a a := ⟨rfl, rfl, rfl, rfl, rfl, rfl, rfl, rfl⟩

theorem SameOperands.trans (h : SameOperands a b) (h' : SameOperands b c) : SameOperands a c := by
  obtain ⟨hdata, hlen, hpoly, hmax, hexp, hcrc, hcrcv, herr⟩ := h
  obtain ⟨hdata', hlen', hpoly', hmax', hexp', hcrc', hcrcv', herr'⟩ := h'
  exact ⟨hdata.trans hdata', hlen.trans hlen', hpoly.trans hpoly', hmax.trans hmax', hexp.trans hexp', hcrc.trans hcrc',
    hcrcv.trans hcrcv', herr.trans herr'⟩

theorem MicroStep.sameOperands {ready : Bool} (hs : MicroStep ready a b) (hp : a.phase ≠ .cDiv) : SameOperands b a := by
  obtain ⟨hdata, hlen, hpoly, hmax, hexp, herr⟩ := hs.operands_eq
  obtain ⟨hcrc, hcrcv⟩ := hs.crc_eq (.inl hp)
  exact ⟨hdata, hlen, hpoly, hmax, hexp, hcrc, hcrcv, herr⟩

/-- Two idle legal engines differ in working registers only, if not in their operands. -/
theorem SameOperands.sameRegisters (h : SameOperands a b) (ha : Legal a) (hb : Legal b) (hpa : a.phase = .idle)
    (hpb : b.phase = .idle) : SameRegisters a b := by
  obtain ⟨hdata, hlen, hpoly, hmax, hexp, hcrc, hcrcv, herr⟩ := h
  obtain ⟨-, -, hresva⟩ := (legal_iff_of_idle hpa).1 ha
  obtain ⟨-, -, hresvb⟩ := (legal_iff_of_idle hpb).1 hb
  exact ⟨hdata, hlen, hpoly, hmax, hexp, hcrc, hcrcv, herr, hresva.trans hresvb.symm, hpa.trans hpb.symm⟩

end

/-- A machine that owes `k` steps and the results `R` of a `SOLVE`. -/
structure Solving (s : State) (k : Nat) (R : List (BitVec Config.nmax × Checksum)) : Prop where
  legal : Legal s.engine
  exact : Exact s.engine
  owes : Owes s.engine k R

section
variable {s t : State} {j k : Nat} {R : List (BitVec Config.nmax × Checksum)}

theorem waits_succ_of_next (hs : step s = .next t) :
    waits (j + 1) s =
      (if s.engine.phase = .sEmit ∧ (currentInputs s).resReady = false then 1 else 0) + waits j t := by
  rw [waits, hs]

theorem waits_le (k : Nat) (s : State) : waits k s ≤ k := by
  induction k generalizing s with
  | zero => exact le_rfl
  | succ k ih =>
    cases hs : step s with
    | next t =>
      have := ih t
      rw [waits_succ_of_next hs]
      split <;> omega
    | fault r => simp [waits, hs]
    | refused r => simp [waits, hs]

theorem waits_succ_le_of_not_sEmit (hp : s.engine.phase ≠ .sEmit) : waits (j + 1) s ≤ j := by
  cases hs : step s with
  | next t => simpa [waits_succ_of_next hs, hp] using waits_le j t
  | fault r => simp [waits, hs]
  | refused r => simp [waits, hs]

theorem waits_le_succ (k : Nat) (s : State) : waits k s ≤ waits (k + 1) s := by
  induction k generalizing s with
  | zero => exact Nat.zero_le _
  | succ k ih =>
    cases hs : step s with
    | next t => rw [waits_succ_of_next hs, waits_succ_of_next hs]; exact Nat.add_le_add_left (ih t) _
    | fault r => simp [waits, hs]
    | refused r => simp [waits, hs]

/-- A number of steps that grows by at most one a step is met on the way. -/
theorem exists_eq_add_waits {q : Nat} (h : q + waits k t ≤ k) : ∃ j, j ≤ k ∧ j = q + waits j t := by
  induction k with
  | zero => exact ⟨0, le_rfl, by omega⟩
  | succ k ih =>
    rcases Nat.eq_or_lt_of_le h with heq | hlt
    · exact ⟨k + 1, le_rfl, heq.symm⟩
    · have := waits_le_succ k t
      obtain ⟨j, hj, heq⟩ := ih (by omega)
      exact ⟨j, by omega, heq⟩

/-- A step of a search waits, or pays a step; the result the host takes is the first that is owed. -/
theorem Solving.step (hs : Solving s k R) (hb : s.engine.phase ≠ .idle) (hr : resets s = false)
    (hw : wordChanged s = false) :
    ∃ t k' R', Machine.step s = .next t ∧ Solving t k' R' ∧ SameOperands t.engine s.engine ∧
      R = (accepted s).toList ++ R' ∧ ∀ j, k + waits (j + 1) s = k' + waits j t + 1 := by
  obtain ⟨g, hg⟩ := hs.legal.exists_microStep (currentInputs s).resReady
  have hstep := step_of_microStep hb hr hw hg
  have hlegal := hg.legal hs.legal
  have hexact := hg.exact hs.legal hs.exact
  have hsame := hg.sameOperands fun hp => hs.owes.at hp
  by_cases hp : s.engine.phase = .sEmit
  · have hresv := hs.legal.resv_iff.2 hp
    cases hg with
    | hold _ hready =>
      have hready' : (currentInputs s).resReady = false := by simpa [hresv] using hready
      exact ⟨_, k, R, hstep, ⟨hlegal, hexact, hs.owes⟩, hsame, by simp [accepted, hready'], fun j => by
        rw [waits_succ_of_next hstep, if_pos ⟨hp, hready'⟩]; omega⟩
    | release _ hready =>
      have hready' : (currentInputs s).resReady = true := by simpa [hresv] using hready
      obtain ⟨k', R', rfl, rfl, howes⟩ := hs.owes.release hp
      exact ⟨_, k', R', hstep, ⟨hlegal, hexact, howes⟩, hsame, by simp [accepted, hp, hresv, hready', hr], fun j => by
        rw [waits_succ_of_next hstep, if_neg (by simp [hready'])]; omega⟩
    -- No other case starts in `S_EMIT`.
    | _ => simp_all
  · obtain ⟨k', rfl, howes⟩ := hs.owes.microStep hs.legal hs.exact hg hb hp
    exact ⟨_, k', R, hstep, ⟨hlegal, hexact, howes⟩, hsame, by rw [accepted_of_not_sEmit hp]; rfl, fun j => by
      rw [waits_succ_of_next hstep, if_neg fun h => hp h.1]; omega⟩

/-- Up to its end, the run of a search under a host that keeps off: what is delivered and what is still owed make up what was
owed at first. -/
theorem Solving.run (hs : Solving s k R) (hkeep : HostKeepsOff j s) (hle : j ≤ k + waits j s) :
    ∃ u k' R', core.run j s = .next u ∧ Solving u k' R' ∧ SameOperands u.engine s.engine ∧
      u.inputs = s.inputs.drop j ∧ R = trace j s ++ R' ∧ k + waits j s = j + k' := by
  induction j generalizing s k R with
  | zero => exact ⟨s, k, R, rfl, hs, .refl _, rfl, rfl, by simp [waits]⟩
  | succ j ih =>
    obtain ⟨⟨hr, hw⟩, hkeep'⟩ := hostKeepsOff_succ.1 hkeep
    have hb : s.engine.phase ≠ .idle := fun hp => by
      have := waits_succ_le_of_not_sEmit (s := s) (j := j) (by simp [hp])
      obtain ⟨rfl, -⟩ := hs.owes.at hp
      omega
    obtain ⟨t, k', R', hstep, ht, hsame, rfl, hpaid⟩ := hs.step hb hr hw
    have hinputs := step_inputs hstep
    have hpaid := hpaid j
    obtain ⟨u, k'', R'', hrun, hu, hsame', hdrop, rfl, hleft⟩ :=
      ih ht ((hostKeepsOff_congr (by rw [hinputs, consumeInputs_inputs])).1 hkeep') (by omega)
    refine ⟨u, k'', R'', by rw [run_succ_of_next hstep, hrun], hu, hsame'.trans hsame, ?_, ?_, by omega⟩
    · rw [hdrop, hinputs, List.drop_tail]
    · rw [trace_succ_of_next hstep, List.append_assoc]

end

/-- An accepted `SOLVE` owes the whole of `Solve`, in the steps R211 counts. -/
theorem owes_solve {n : Nat} {g : Engine n} (hp : g.phase = .sDelta) (hdi : g.di = 0) :
    Owes g
      (solveSteps g.len.toNat g.maxerr.toNat (solve g.data g.len.toNat g.poly g.maxerr.toNat g.expected).length)
      (solve g.data g.len.toNat g.poly g.maxerr.toNat g.expected) := by
  refine owes_of_phase hp ⟨?_, solve_eq_resultsOf _ _ _ _ _⟩
  rw [solve_eq_resultsOf, solveSteps, stepsFor, resultsFor, searchOf, length_patterns, hdi]
  simp only [BitVec.ofNat_eq_ofNat, BitVec.toNat_ofNat, Nat.zero_mod, Nat.sub_zero]
  omega

/-- Settles O56: an accepted `SOLVE` owes exactly `Solve`, every step that is no waiting pays a step of it, and what is accepted
pays its results in order. -/
theorem solveCommandDeliversSolve : Obligations.SolveCommandDeliversSolve := by
  unfold Obligations.SolveCommandDeliversSolve
  intro s k hl hidle herr hlen hkeep n m R
  obtain ⟨-, -, hstart⟩ := solveStartsDeltas
  obtain ⟨-, -, hstarted⟩ := hstart s hidle
  have hexec := hstarted herr hlen
  generalize ht : ({ s with engine := { s.engine with lfsr := 0x01, di := 0, phase := .sDelta } } : State) = t at hexec
  have hrule : t = withEngine s (startSolve s.engine) := by
    rw [exec_eq, offerCommand_idle _ _ hidle] at hexec
    exact (Host.Outcome.next.inj hexec).symm
  have hsolving : Solving t (solveSteps n m R.length) R :=
    { legal := by rw [hrule]; exact legal_startSolve hl hidle
      exact := by rw [hrule]; exact exact_startSolve hidle
      owes := by subst ht; exact owes_solve rfl rfl }
  have hoperands : SameOperands t.engine s.engine := by subst ht; exact .refl s.engine
  have hinputs : t.inputs = s.inputs := by rw [← ht]
  have hrun := fun hle => hsolving.run ((hostKeepsOff_congr hinputs.symm).1 hkeep) hle
  refine ⟨t, hexec, fun hlt => ?_, fun heq => ?_, exists_eq_add_waits⟩
  · obtain ⟨u, k', R', hu, husolving, -, -, hR, hleft⟩ := hrun hlt.le
    refine ⟨u, hu, fun hp => ?_, ⟨R', hR.symm⟩⟩
    obtain ⟨rfl, -⟩ := husolving.owes.at hp
    omega
  · obtain ⟨u, k', R', hu, husolving, hsame, hdrop, hR, hleft⟩ := hrun heq.le
    have hdone : u.engine.phase = .idle := by
      by_contra hb
      have := husolving.owes.pos_of_busy husolving.legal hb
      omega
    obtain ⟨-, rfl⟩ := husolving.owes.at hdone
    exact ⟨u, hu, by rw [hR, List.append_nil],
      (hsame.trans hoperands).sameRegisters husolving.legal hl hdone hidle, by rw [hdrop, hinputs]⟩

end Sys2Proof.Machine

/-! The host commands (R160 to R168): what `exec` does in the two states of the engine, what each operand command writes, and
how a step comes to run the word that is offered. -/

namespace Sys2Proof.Machine

/-! ### Acceptance -/

section
variable {s : State}

theorem exec_of_idle (i : Instr) (hidle : s.engine.phase = .idle) :
    exec i s = .next (withEngine s (ruleOf i s.engine)) := by
  rw [exec_eq, offerCommand_idle _ _ hidle]

theorem exec_of_busy (i : Instr) (hbusy : s.engine.phase ≠ .idle) : exec i s = .next s := by
  rw [exec_eq, offerCommand_of_busy _ _ hbusy]

/-- Busy or idle, no command but `CLR` writes an `ERR` that is not 0 (R183, R188). -/
theorem exec_err_of_ne_zero {i : Instr} {t : State} (hi : i ≠ .clr) (herr : s.engine.err ≠ 0)
    (hexec : exec i s = .next t) : t.engine.err = s.engine.err := by
  rw [exec_eq] at hexec
  rcases (offerCommand_next_iff _ _ _).1 hexec with ⟨-, rfl⟩ | ⟨-, rfl⟩
  · exact ruleOf_err_of_ne_zero hi herr
  · rfl

theorem accepts_of_busy (hbusy : s.engine.phase ≠ .idle) : accepts s = false := by
  rw [Bool.eq_false_iff, ne_eq, accepts_iff]
  exact fun ⟨_, _, hidle⟩ => hbusy hidle

/-- The step of a busy engine asks of the host `rst` and `res_ready` only. -/
theorem step_of_busy (hbusy : s.engine.phase ≠ .idle) (hw : wordChanged s = false) :
    step s = if resets s then .next (resetStep (consumeInputs s))
      else liftEngine (consumeInputs s) (engineStep (currentInputs s).resReady s.engine) := by
  cases hr : resets s with
  | true => exact step_of_resets hr
  | false => rw [step_of_not_accepts hr (accepts_of_busy hbusy), hw]; rfl

/-- An offer that is not made is not changed. -/
theorem wordChanged_of_not_cmdValid (h : (currentInputs s).cmdValid = false) : wordChanged s = false := by
  unfold wordChanged
  split
  next p q ps hs =>
    have hp : p.cmdValid = false := by simpa [currentInputs, hs] using h
    simp [hp]
  next => rfl

end

/-! ### The operand commands -/

/-- Settles O10: the three cases of the command's rule; in a legal engine with room the value fits in fewer bits than `DATA`
has, and `LEN` is below `NMAX`, which is below `2^12`. -/
theorem pushAppendsBit : Obligations.PushAppendsBit := by
  unfold Obligations.PushAppendsBit
  intro b s hidle
  rw [exec_of_idle _ hidle, ruleOf]
  refine ⟨rfl, ?_⟩
  rcases pushBit_cases b s.engine with ⟨herr, h⟩ | ⟨herr, hfull, h⟩ | ⟨herr, hroom, h⟩ <;> rw [h]
  · exact ⟨fun _ => rfl, fun h0 => absurd h0 herr, fun h0 => absurd h0 herr⟩
  · exact ⟨fun hne => absurd herr hne, fun _ _ => rfl, fun _ hne => absurd hfull hne⟩
  · refine ⟨fun hne => absurd herr hne, fun _ hfull => absurd hfull hroom, fun _ _ => ⟨rfl, fun hl => ?_⟩⟩
    have hlt : s.engine.len.toNat < Config.nmax := hl.len_le.lt_of_ne hroom
    exact ⟨shiftIn_toNat b hl.data_lt hlt, toNat_succ (hlt.trans_le Laws.nmax_le)⟩

/-- Settles O9: `CLR` is its rule, and every other command keeps an `ERR` that is not 0. -/
theorem clrRestoresDefaults : Obligations.ClrRestoresDefaults := by
  unfold Obligations.ClrRestoresDefaults
  refine ⟨rfl, fun s hidle => exec_of_idle .clr hidle, fun i s t hexec herr hzero => ?_⟩
  by_contra hi
  exact herr ((exec_err_of_ne_zero hi herr hexec).symm.trans hzero)

/-- Settles O12: the rule at acceptance, and 512 is the limit of the immediates of opcode 3. -/
theorem setpolyWritesPoly : Obligations.SetpolyWritesPoly := by
  unfold Obligations.SetpolyWritesPoly
  refine ⟨fun p s => ⟨rfl, exec_of_idle _, exec_of_busy _⟩, fun w hop himm => ?_⟩
  rw [decode_eq_unusedImmediate_iff, hop]
  exact ⟨by decide, himm⟩

/-- Settles O13: the rule at acceptance, and every immediate lies below the limit 4096 of opcode 4. -/
theorem setmaxWritesMaxerr : Obligations.SetmaxWritesMaxerr := by
  unfold Obligations.SetmaxWritesMaxerr
  refine ⟨fun m s hidle => ⟨rfl, exec_of_idle _ hidle⟩, fun w hop => ?_⟩
  have himm : (immField w).toNat < immLimit (opField w) := by
    rw [hop]
    exact (immField w).isLt
  exact decode_eq_ok_iff.2 (encode_withImmediate (i := .setmax 0) hop himm)

/-- Settles O14: the rule at acceptance. -/
theorem setexpWritesExpected : Obligations.SetexpWritesExpected := by
  unfold Obligations.SetexpWritesExpected
  exact fun x s hidle => ⟨rfl, exec_of_idle _ hidle⟩

/-! ### The offered word -/

/-- Settles O17: the rule of an accepted word that decodes to no command is the raise, which writes `ERR` only. -/
theorem illegalWordRaisesIllegalCommand : Obligations.IllegalWordRaisesIllegalCommand := by
  unfold Obligations.IllegalWordRaisesIllegalCommand
  intro s r ha hd
  rw [step_of_accepts ha, wordRule_of_error hd]
  by_cases herr : s.engine.err = 0
  · rw [raise_of_no_err _ _ herr, if_pos herr]
    rfl
  · rw [raise_of_err _ _ herr, if_neg herr]
    rfl

/-- Settles O21: only an idle engine accepts, and there `exec` applies the rule that the accepted word applies. -/
theorem stepRunsAcceptedCommand : Obligations.StepRunsAcceptedCommand := by
  unfold Obligations.StepRunsAcceptedCommand
  intro s i ha hd
  obtain ⟨-, -, hidle⟩ := (accepts_iff s).1 ha
  rw [step_of_accepts ha, wordRule_of_ok hd]
  exact (exec_of_idle (s := consumeInputs s) i hidle).symm

theorem tableWord_toNat (w : CmdWord) : tableWord 16 w.toNat = w := by
  rw [tableWord, Nat.mod_eq_of_lt w.isLt, BitVec.ofNat_toNat, BitVec.setWidth_eq]

/-- Settles O22: the engine is idle and the word is offered without a reset, so the step accepts it. -/
theorem fetchWordRunsNext : Obligations.FetchWordRunsNext := by
  unfold Obligations.FetchWordRunsNext
  intro s w i hd
  refine ⟨by simp [decodeTableWord, tableWord_toNat, hd], ?_⟩
  rw [State.withFetchWord, tableWord_toNat]
  have haccepts : accepts (offerWord w s) = true := (accepts_iff _).2 ⟨rfl, rfl, rfl⟩
  exact stepRunsAcceptedCommand _ i haccepts hd

/-- Settles O23: a busy engine's step reads neither `cmd_valid` nor `cmd_word`. -/
theorem busyEngineAcceptsNoCommand : Obligations.BusyEngineAcceptsNoCommand := by
  unfold Obligations.BusyEngineAcceptsNoCommand
  refine ⟨fun s => cmdReady_iff s.engine, fun s i hbusy => exec_of_busy i hbusy, ?_⟩
  rintro ⟨g, _, draws⟩ p ps hbusy rfl hw
  rw [step_of_busy hbusy hw,
    step_of_busy (s := ⟨g, { p with cmdValid := false } :: ps, draws⟩) hbusy (wordChanged_of_not_cmdValid rfl)]
  rfl

end Sys2Proof.Machine

/-! Errors (R181 to R195): the raise, the gating of the commands while `ERR` is not 0, the codes that are ever written, and the
waiting of an idle engine. -/

namespace Sys2Proof.Machine

/-! ### The raise -/

/-- Settles O18: with an error already there `raise` is the identity, which writes `ERR` back as it is. -/
theorem firstErrorWins : Obligations.FirstErrorWins := by
  unfold Obligations.FirstErrorWins
  refine ⟨fun n c g => ?_, rfl, rfl, rfl, rfl⟩
  by_cases herr : g.err = 0
  · rw [raise_of_no_err c g herr, if_pos herr]
  · rw [raise_of_err c g herr, if_neg herr]

/-! ### Gating -/

/-- Settles O19: the gated case of `PUSH`, `CRC` and `SOLVE` at acceptance; the other commands' rules do not ask for `ERR`. -/
theorem errorGatesCommands : Obligations.ErrorGatesCommands := by
  unfold Obligations.ErrorGatesCommands
  intro s hidle herr
  obtain ⟨-, -, hcrc⟩ := crcStartsDivision
  obtain ⟨-, -, hsolve⟩ := solveStartsDeltas
  have hpush (b : BitVec 1) : exec (.push b) s = .next s := by
    obtain ⟨-, hgated, -⟩ := pushAppendsBit b s hidle
    exact hgated herr
  have hillegal : illegalCommand s = .next s := by
    rw [illegalCommand, offerCommand_idle _ _ hidle, raise_of_err _ _ herr]
    rfl
  exact ⟨hpush, (hsolve s hidle).1 herr, (hcrc s hidle).1 herr, hillegal, fun _ => exec_of_idle _ hidle,
    fun _ => exec_of_idle _ hidle, fun _ => exec_of_idle _ hidle, _, exec_of_idle .clr hidle, rfl,
    by simp [AtResetValues, ruleOf, hidle]⟩

/-! ### The codes written -/

/-- `ERR` holds 0 or the code of a cause that is raised; code 2 is kept, and no rule raises it (R181, R185). -/
def ErrDefined {n : Nat} (g : Engine n) : Prop := g.err ∈ ([0, 1, 3, 4] : List ErrCode)

section
variable {n : Nat} {g : Engine n}

theorem causeCode_mem {c : Cause} (hc : c ≠ .invalidBound) : causeCode c ∈ ([0, 1, 3, 4] : List ErrCode) := by
  cases c with
  | invalidBound => exact absurd rfl hc
  | invalidWidth | lengthOverflow | illegalCommand => decide

theorem errDefined_of_zero (h0 : g.err = 0) : ErrDefined g := by
  rw [ErrDefined, h0]
  decide

theorem errDefined_raise {c : Cause} (hc : c ≠ .invalidBound) (hg : ErrDefined g) : ErrDefined (raise c g) := by
  rw [ErrDefined, raise_err]
  split
  · exact causeCode_mem hc
  · exact hg

theorem errDefined_pushBit (b : BitVec 1) (hg : ErrDefined g) : ErrDefined (pushBit b g) := by
  rcases pushBit_cases b g with ⟨-, h⟩ | ⟨-, -, h⟩ | ⟨-, -, h⟩ <;> rw [h]
  · exact hg
  · exact causeCode_mem (c := .lengthOverflow) (by decide)
  · exact hg

theorem errDefined_startCrc (hg : ErrDefined g) : ErrDefined (startCrc g) := by
  rcases startCrc_cases g with ⟨-, h⟩ | ⟨-, -, h⟩ | ⟨-, -, h⟩ <;> rw [h]
  · exact hg
  · exact causeCode_mem (c := .invalidWidth) (by decide)
  · exact hg

theorem errDefined_startSolve (hg : ErrDefined g) : ErrDefined (startSolve g) := by
  rcases startSolve_cases g with ⟨-, h⟩ | ⟨-, -, h⟩ | ⟨-, -, h⟩ <;> rw [h]
  · exact hg
  · exact causeCode_mem (c := .invalidWidth) (by decide)
  · exact hg

end

theorem errDefined_ruleOf {g : Engine Config.nmax} (hg : ErrDefined g) (i : Instr) : ErrDefined (ruleOf i g) := by
  cases i with
  | clr => exact errDefined_of_zero (clearEngine_err g)
  | push b => exact errDefined_pushBit b hg
  | setpoly p => exact hg
  | setmax m => exact hg
  | setexp x => exact hg
  | crc => exact errDefined_startCrc hg
  | solve => exact errDefined_startSolve hg

theorem errDefined_wordRule {g : Engine Config.nmax} (hg : ErrDefined g) (w : CmdWord) : ErrDefined (wordRule w g) :=
  wordRule_induction (p := fun f => ErrDefined (f g)) w (errDefined_ruleOf hg) (errDefined_raise (by decide) hg)

/-- Settles O31: reset writes 0, an accepted word raises no `invalidBound`, and no micro-step writes `ERR`. -/
theorem errCodeStaysDefined : Obligations.ErrCodeStaysDefined := by
  unfold Obligations.ErrCodeStaysDefined
  intro s t herr hstep
  rcases step_engine_cases hstep with ⟨-, ht⟩ | ⟨-, -, ht⟩ | ⟨-, -, hengine⟩
  · rw [ht]
    exact errDefined_of_zero (resetEngine_err _ _)
  · rw [ht]
    exact errDefined_wordRule herr _
  · obtain ⟨-, -, -, -, -, hkept⟩ := (microStep_of_engineStep hengine).operands_eq
    rwa [hkept]

/-! ### Waiting -/

/-- Settles O32: without an offer no word is accepted, and the step an idle engine takes of its own is the wait. -/
theorem idleEngineWaits : Obligations.IdleEngineWaits := by
  unfold Obligations.IdleEngineWaits
  intro s hidle hr hv
  have ha : accepts s = false := by simp [accepts, hv]
  rw [step_of_not_accepts hr ha, wordChanged_of_not_cmdValid hv, engineStep_of_microStep (.wait hidle)]
  rfl

end Sys2Proof.Machine

/-! Reset (R44, R200): the reset engine holds every reset value, and a step with `rst` asserted puts it in place of whatever
engine stood there. -/

namespace Sys2Proof.Machine

/-- Whatever free values the unspecified registers draw (R44). -/
theorem atResetValues_resetEngine (n draw : Nat) : AtResetValues (resetEngine n draw) := by
  simp [AtResetValues]

/-- Settles O24: both engines are reset engines, and a reset engine is idle, so it offers `cmd_ready`. -/
theorem resetGivesResetValues : Obligations.ResetGivesResetValues := by
  unfold Obligations.ResetGivesResetValues
  rw [reset_engine]
  refine ⟨atResetValues_resetEngine _ _, fun s hr => ⟨_, step_of_resets hr, ?_, ?_, ?_⟩⟩
  · exact atResetValues_resetEngine _ _
  · exact (cmdReady_iff _).2 (resetEngine_phase _ _)
  · rw [resetStep_inputs, consumeInputs_inputs]

end Sys2Proof.Machine
